-- ==== Sys2Proof/Word.lean ====
section
/-! DEFINITION. The two widths of the practice-VM CORE: 16-bit words (registers, values) and 8-bit bytes
(memory cells, instruction bytes). spec/00_scope.md R6, R7, R16. -/

namespace Sys2Proof

/-- A 16-bit unsigned value: every register and every word moved (R6, R16). -/
abbrev Word := BitVec 16

/-- An 8-bit unsigned value: one memory cell or one instruction byte (R7, R8). -/
abbrev Byte := BitVec 8

end Sys2Proof
end

