-- ==== Sys2Proof/Config.lean ====
section
/-! DEFINITION. The implementation parameters of spec/00_scope.md section 4 (R6 to R14), each under the
spec's own name. They are fixed configuration, not state (spec/10_state.md R31). R1_INIT and R2_INIT (R15)
are no constants: they are arguments of `Machine.State.createProcessor`. -/

namespace Sys2Proof.Config

/-- `MEM_SIZE` (R7): the valid byte addresses are those below it. -/
def memSize : Nat := 20

/-- `INSN_WIDTH` (R10): the width of LOAD, STORE, ADD and SUB in bytes. -/
def insnWidth : Nat := 3

/-- `PRINT_WIDTH` (R13): how far PRINT advances the program counter. UNVERIFIED (the source doubts its own
value, spec/90_conflicts.md C1), unsafe: see notes/assumptions/7.md. -/
def printWidth : Nat := 1

/-- `LAST_INSN_ADDR` (R11): the last address an opcode is fetched from. -/
def lastInsnAddr : Word := 0x0D#16

/-- `OUTPUT_ADDR` (R12): the output word's address, read by PRINT and `flushOutput`. -/
def outputAddr : Nat := 0x0E

/-- `INPUT0_ADDR` (R12): the first input word, by convention only. No rule of the engine reads it. -/
def input0Addr : Nat := 0x10

/-- `INPUT1_ADDR` (R12): the second input word, by convention only. No rule of the engine reads it. -/
def input1Addr : Nat := 0x12

/-- `ENTRY` (R14): where every pass starts. -/
def entry : Word := 0x00#16

/-- `PC_ID` (R9): the register id of the program counter. -/
def pcId : Byte := 0x00#8

/-- The register id of R1, one of `GPR_IDS` (R9). -/
def r1Id : Byte := 0x01#8

/-- The register id of R2, one of `GPR_IDS` (R9). -/
def r2Id : Byte := 0x02#8

end Sys2Proof.Config
end

