-- ==== Sys2Proof/Syntax.lean ====
section
/-! DEFINITION. The instructions of the practice-VM CORE: one constructor per row of spec/opcode_table.json
(spec/30_encoding.md R69). -/

namespace Sys2Proof

/-- The six instructions. Operands are the whole bytes the encoding holds (R66, R67, R70, R71): a legal
opcode with an invalid register operand is one of the decoder's results (R79) and has an effect of its own,
so the byte is kept and `Instr.wellFormed` says which bytes are valid register operands. -/
inductive Instr where
  /-- LOAD r, a (format RA, R66, R85). -/
  | load (r a : Byte)
  /-- STORE r, a (format RA, R66, R86). -/
  | store (r a : Byte)
  /-- ADD ra, rb (format RR, R67, R90). -/
  | add (ra rb : Byte)
  /-- SUB ra, rb (format RR, R67, R91). -/
  | sub (ra rb : Byte)
  /-- PRINT (format N, R68, R97). -/
  | print
  /-- HALT (format N, R68, R98). -/
  | halt
deriving DecidableEq, Repr

end Sys2Proof
end

