-- ==== Sys2Proof/WellFormed.lean ====
section
/-! DEFINITION. Which instructions have only operands their encoding calls valid (spec/30_encoding.md R70,
R71): each register operand is 0x01 or 0x02. Every address operand is admitted, since decode never rejects
one (R71). -/

namespace Sys2Proof

/-- `b` is a valid register operand: a general-purpose register's id (R9, R70). -/
def validRegOperand (b : Byte) : Bool := b == Config.r1Id || b == Config.r2Id

/-- Every register operand of the instruction is valid (R70, R74). -/
def Instr.wellFormed : Instr → Bool
  | .load r _ => validRegOperand r
  | .store r _ => validRegOperand r
  | .add ra rb => validRegOperand ra && validRegOperand rb
  | .sub ra rb => validRegOperand ra && validRegOperand rb
  | .print => true
  | .halt => true

end Sys2Proof
end

