-- ==== Sys2Proof/Decode.lean ====
section
/-! DEFINITION. The opcode map, the decoder from bytes to instructions and the encoder back
(spec/30_encoding.md R65 to R79, spec/44_execution_engine.md R105). -/

namespace Sys2Proof

/-- The operations an opcode byte can select (R69). -/
inductive Opcode where
  | load | store | add | sub | print | halt
deriving DecidableEq, Repr

/-- The opcode byte of each operation (R69). -/
def Opcode.toByte : Opcode → Byte
  | .load => 0x01#8
  | .store => 0x02#8
  | .add => 0x03#8
  | .sub => 0x04#8
  | .print => 0x05#8
  | .halt => 0xFF#8

/-- The fixed table looked up with an opcode byte; `none` for the 250 illegal bytes (R69, R73). -/
def Opcode.ofByte (b : Byte) : Option Opcode :=
  if b = Opcode.load.toByte then some .load
  else if b = Opcode.store.toByte then some .store
  else if b = Opcode.add.toByte then some .add
  else if b = Opcode.sub.toByte then some .sub
  else if b = Opcode.print.toByte then some .print
  else if b = Opcode.halt.toByte then some .halt
  else none

/-- How many operand bytes follow the opcode: two for formats RA and RR, none for format N (R66 to R68, R105). -/
def Opcode.operandCount : Opcode → Nat
  | .load => 2
  | .store => 2
  | .add => 2
  | .sub => 2
  | .print => 0
  | .halt => 0

/-- How many operand bytes are fetched after an opcode byte: none after an illegal one (R73, R105). -/
def operandCountOf (op : Byte) : Nat :=
  match Opcode.ofByte op with
  | some o => o.operandCount
  | none => 0

/-- Why a byte sequence is no instruction. -/
inductive DecodeError where
  /-- The opcode byte is not in the table (R73): InvalidInstruction, with the offending byte. -/
  | invalidInstruction (b : Byte)
  /-- The bytes end before the instruction does, after `have_` of them. The engine never meets this: its
  fetches stay within the image (R76, R79). -/
  | truncated (have_ : Nat)
deriving DecidableEq, Repr

/-- The two operand bytes of formats RA and RR, in address order (R66, R67). -/
def decodeTwoOperands (mk : Byte → Byte → Instr) : List Byte → Except DecodeError (Instr × List Byte)
  | b1 :: b2 :: rest => .ok (mk b1 b2, rest)
  | [_] => .error (.truncated 2)
  | [] => .error (.truncated 1)

/-- Decode the instruction at the head of a byte sequence and give the bytes after it. Total: every opcode
byte gives an instruction or is rejected by name (R79). The bytes after PRINT or HALT are no part of the
instruction (R68, R74). -/
def decode : List Byte → Except DecodeError (Instr × List Byte)
  | [] => .error (.truncated 0)
  | op :: rest =>
    match Opcode.ofByte op with
    | some .load => decodeTwoOperands .load rest
    | some .store => decodeTwoOperands .store rest
    | some .add => decodeTwoOperands .add rest
    | some .sub => decodeTwoOperands .sub rest
    | some .print => .ok (.print, rest)
    | some .halt => .ok (.halt, rest)
    | none => .error (.invalidInstruction op)

/-- The bytes of an instruction in address order, opcode first (R65 to R69, R77). -/
def encode : Instr → List Byte
  | .load r a => [Opcode.load.toByte, r, a]
  | .store r a => [Opcode.store.toByte, r, a]
  | .add ra rb => [Opcode.add.toByte, ra, rb]
  | .sub ra rb => [Opcode.sub.toByte, ra, rb]
  | .print => [Opcode.print.toByte]
  | .halt => [Opcode.halt.toByte]

/-- The low `8 * n` bits of `w` as `n` bytes, the most significant byte first. -/
def bytesHighFirst (w : Nat) : Nat → List Byte
  | 0 => []
  | n + 1 => BitVec.ofNat 8 (w / 256 ^ n) :: bytesHighFirst w n

/-- The bytes, in address order, of an instruction numbered as spec/opcode_table.json numbers it, followed
by zero bytes up to the longest instruction. R65: `match` and `mask` are over
`byte[pc] * 2^16 + byte[pc+1] * 2^8 + byte[pc+2]` for a 3-byte format and over `byte[pc]` for a 1-byte one,
so the opcode is the most significant byte. DEDUCED, safe: notes/assumptions/3.md. -/
def tableBytes (nbits w : Nat) : List Byte :=
  bytesHighFirst w ((nbits + 7) / 8) ++ List.replicate (Config.insnWidth - (nbits + 7) / 8) 0x00#8

/-- The instruction the decoder reads from the opcode table's `nbits`-bit word `w`. -/
def decodeTableWord (nbits w : Nat) : Option Instr :=
  match decode (tableBytes nbits w) with
  | .ok (i, _) => some i
  | .error _ => none

end Sys2Proof
end

