-- ==== Sys2Proof/Machine/State.lean ====
section
/-! DEFINITION. The state of one processor as spec/10_state.md R31 lists it, as plain data, the reasons a
step can stop, and the state after reset (spec/70_reset_and_hazards.md R141). -/

namespace Sys2Proof.Machine

/-- A memory image: the cells that hold another value than `Memory.unlisted`, addresses strictly rising
(spec/20_memory.md R53, R57). The canonical form is `Memory.wf`; notes/assumptions/2.md. -/
abbrev Memory := List Host.Cell

/-- The engine run state (R25). -/
inductive RunState where
  /-- No pass is in progress; the processor is ready for `process`. -/
  | idle
  /-- A pass is in progress. -/
  | running
  /-- A fatal fault has stopped the processor for good. -/
  | faulted
deriving DecidableEq, Repr

/-- The fault kinds of spec/60_exceptions.md R121. -/
inductive FaultKind where
  /-- Code 1 (R122): the opcode byte is not in the table. -/
  | invalidInstruction
  /-- Code 2 (R123): LOAD or STORE touches an address that is no memory. -/
  | memoryOutOfBounds
  /-- Code 3 (R124): a register operand is neither 0x01 nor 0x02. -/
  | invalidRegister
deriving DecidableEq, Repr

/-- What `raise Fault(kind, info)` is given (R120). -/
structure RaisedFault where
  kind : FaultKind
  info : Word
deriving DecidableEq, Repr

/-- The fault record `(kind, pc_at_fault, info)` (R26, R125). -/
structure FaultRecord where
  kind : FaultKind
  pcAtFault : Word
  info : Word
deriving DecidableEq, Repr

/-- The whole state of one processor (R31), and the host's side of its `process` calls. -/
structure State where
  /-- Register id 0x00, the program counter (R22). -/
  pc : Word
  /-- Register id 0x01 (R23). -/
  r1 : Word
  /-- Register id 0x02 (R23). -/
  r2 : Word
  /-- The engine run state (R25). -/
  run : RunState
  /-- The fault record (R26). -/
  fault : Option FaultRecord
  /-- The output event sequence, oldest first (R29). -/
  out : List Word
  /-- The attached memory image (R30). -/
  mem : Option Memory
  /-- The model's own: the images of the host's coming `process` calls, oldest call first (R111, R145).
  DESIGN CHOICE, safe: notes/assumptions/4.md. -/
  supplied : List Memory
  /-- The model's own: the images handed back to the caller, oldest first (R108, R120).
  DESIGN CHOICE, safe: notes/assumptions/4.md. -/
  returned : List Memory
deriving DecidableEq, Repr

/-- The stops that no rule of the spec describes. A fault of the spec (R120) is none of these: it is a next
state with `run = faulted`. -/
inductive Fault where
  /-- Raised by the engine's fetch and by LOAD, STORE and PRINT when no image is attached. The spec
  excludes it while a pass runs (R30), and no run from reset meets it. Safe: the model stops where the spec
  has no behaviour. notes/assumptions/6.md. -/
  | noImageAttached
deriving DecidableEq, Repr

/-- Why a processor takes no step. -/
inductive Refusal where
  /-- An instruction that has no meaning in the model. No arm of `exec` answers it. Safe. -/
  | notModelled (mnemonic : String)
  /-- Raised by a step of an Idle processor for which no `process` call is pending: it is woken only by the
  host (R103, R136). Safe. notes/assumptions/4.md. -/
  | noImageSupplied
  /-- Raised by `process` on a processor whose pass is still running, which the host must not do (R111,
  R112). Safe. -/
  | passInProgress
  /-- Raised by a step of, or `process` on, a Faulted processor (R113, R129). Safe.
  notes/assumptions/5.md. -/
  | processorFaulted
deriving DecidableEq, Repr

/-- `createProcessor()` (R140, R141): the state right after it, for the open parameters R1_INIT and R2_INIT
(R15), which may be any values. -/
def State.createProcessor (r1Init r2Init : Word) : State :=
  { pc := Config.entry
    r1 := r1Init
    r2 := r2Init
    run := .idle
    fault := none
    out := []
    mem := none
    supplied := []
    returned := [] }

/-- The machine right after reset (R141). R1 and R2 hold 0x0000: DESIGN CHOICE, unsafe, the spec gives no
value for them (R15, D4): notes/assumptions/1.md. -/
def State.reset : State := State.createProcessor 0x0000#16 0x0000#16

end Sys2Proof.Machine
end

