-- ==== Sys2Proof/Machine/Ops.lean ====
section
/-! DEFINITION. The named operations over memory and the engine's state: the bounds-checked byte and word
access (spec/20_memory.md R40 to R45), taking a fault (spec/60_exceptions.md R120), the advance and the end
of a pass (spec/44_execution_engine.md R106, R108). The spec has no return from a fault (R129). -/

namespace Sys2Proof.Machine

/-! ### The image as data -/

/-- What an address without an entry holds. An image has all its 20 bytes (R57); this one byte is not
written out. DESIGN CHOICE, unsafe if a loader left bytes undefined (D22): notes/assumptions/2.md. -/
def Memory.unlisted : Byte := 0x00#8

/-- The entry a canonical image holds for the byte `v` at `a`: none where an unlisted address reads as `v`. -/
def Memory.entry (a : Nat) (v : Byte) : Memory := if v = Memory.unlisted then [] else [(a, v)]

/-- Every address is at least `lo` and the addresses rise strictly, all below MEM_SIZE, with no entry
equal to what an unlisted address reads as. -/
def Memory.wfFrom (lo : Nat) : Memory → Bool
  | [] => true
  | (a, v) :: rest =>
    decide (lo ≤ a) && decide (a < Config.memSize) && decide (v ≠ Memory.unlisted) && Memory.wfFrom (a + 1) rest

/-- The canonical form: two canonical images with the same 20 bytes are equal data. -/
def Memory.wf (m : Memory) : Bool := Memory.wfFrom 0 m

/-- `M[a]`: the byte at address `a` (R17, R53). -/
def Memory.read : Memory → Nat → Byte
  | [], _ => Memory.unlisted
  | (b, v) :: rest, a => if b < a then Memory.read rest a else if b = a then v else Memory.unlisted

/-- `M[a] <- v` (R41): the image with the byte at `a` replaced, in canonical form if the image was. -/
def Memory.write : Memory → Nat → Byte → Memory
  | [], a, v => Memory.entry a v
  | (b, w) :: rest, a, v =>
    if b < a then (b, w) :: Memory.write rest a v
    else Memory.entry a v ++ ((b, w) :: rest).filter (fun c => decide (a < c.1))

/-- The image with the given bytes written from address `a` upwards. -/
def Memory.place (m : Memory) (a : Nat) : List Byte → Memory
  | [] => m
  | v :: rest => Memory.place (m.write a v) (a + 1) rest

/-- The image whose bytes from 0x00 upwards are the given ones, 0x00 after them. -/
def Memory.ofBytes (bs : List Byte) : Memory := Memory.place [] 0 bs

/-! ### Bounds-checked access -/

/-- The bounds check every access makes (R40, R41, R50): addresses of MEM_SIZE and above are no memory. -/
def checkAddr (a : Nat) : Except RaisedFault Unit :=
  if Config.memSize ≤ a then .error ⟨.memoryOutOfBounds, BitVec.ofNat 16 a⟩ else .ok ()

/-- `MemRead(a, 1)` (R40). -/
def memReadByte (m : Memory) (a : Nat) : Except RaisedFault Byte := do
  checkAddr a
  return m.read a

/-- `MemWrite(a, 1, v)` (R41). -/
def memWriteByte (m : Memory) (a : Nat) (v : Byte) : Except RaisedFault Memory := do
  checkAddr a
  return m.write a v

/-- The word decode (R42): the byte at the lower address is the low-order byte. -/
def decodeWord (low high : Byte) : Word := BitVec.ofNat 16 (low.toNat + 256 * high.toNat)

/-- The word encode (R43): (low-order byte, high-order byte). -/
def encodeWord (v : Word) : Byte × Byte := (BitVec.ofNat 8 (v.toNat % 256), BitVec.ofNat 8 (v.toNat / 256))

/-- `MemRead(a, 2)`, the little-endian word at `a` (R44): the first address out of range, ascending, is
reported. `a + 1` does not wrap (R50). -/
def memReadWord (m : Memory) (a : Nat) : Except RaisedFault Word := do
  let low ← memReadByte m a
  let high ← memReadByte m (a + 1)
  return decodeWord low high

/-- `MemWrite(a, 2, v)` (R45): both addresses are checked before either byte is written. -/
def memWriteWord (m : Memory) (a : Nat) (v : Word) : Except RaisedFault Memory := do
  checkAddr a
  checkAddr (a + 1)
  let m1 ← memWriteByte m a (encodeWord v).1
  memWriteByte m1 (a + 1) (encodeWord v).2

/-! ### The engine's shared transitions -/

/-- The code of a fault kind (R121); labels of the spec's own choice (D8). -/
def FaultKind.code : FaultKind → Nat
  | .invalidInstruction => 1
  | .memoryOutOfBounds => 2
  | .invalidRegister => 3

/-- The images the caller owns after the engine lets go of the attached one (R108, R120). -/
def State.handedBack (s : State) : List Memory := s.returned ++ s.mem.toList

/-- Taking a fault, `raise Fault(kind, info)` (R120): the record is written with the faulting
instruction's address, the processor is Faulted, the image goes back to the caller, and pc, R1, R2 and out
stay. -/
def State.raise (s : State) (f : RaisedFault) : State :=
  { s with
    fault := some ⟨f.kind, s.pc, f.info⟩
    run := .faulted
    mem := none
    returned := s.handedBack }

/-- The advance by the instruction's byte width, in 16 bits (R106). -/
def State.advance (s : State) (width : Nat) : State := { s with pc := s.pc + BitVec.ofNat 16 width }

/-- `end_pass()` (R108): pc <- 0, the image goes back to the caller, run <- Idle. -/
def State.endPass (s : State) : State :=
  { s with pc := Config.entry, run := .idle, mem := none, returned := s.handedBack }

/-- `emit(v)` (R17, R29): append to the output event sequence. -/
def State.emit (s : State) (v : Word) : State := { s with out := s.out ++ [v] }

/-- The loop test fails (R104): pc is past LAST_INSN_ADDR, compared as 16-bit unsigned values. -/
def State.pastRegion (s : State) : Bool := decide (Config.lastInsnAddr < s.pc)

/-- How far PRINT advances (R13, R97). -/
def printAdvance : Nat := Config.printWidth

/-- How far LOAD, STORE, ADD and SUB advance (R10, R106). -/
def operandAdvance : Nat := Config.insnWidth

/-- The end of an instruction whose body ran in state `s` (R18, R103, R106, R120): the advance after a body
that completed, and the fault of a body that raised, with nothing of the body kept. -/
def finishBody (s : State) (width : Nat) : Except RaisedFault State → Host.Outcome State Fault Refusal
  | .ok t => .next (t.advance width)
  | .error f => .next (s.raise f)

/-- Run `k` on the attached image (R30). -/
def withImage (s : State) (k : Memory → Host.Outcome State Fault Refusal) : Host.Outcome State Fault Refusal :=
  match s.mem with
  | some m => k m
  | none => .fault .noImageAttached

end Sys2Proof.Machine
end

