-- ==== Sys2Proof/Machine/Operands.lean ====
section
/-! DEFINITION. The operand forms: register operands (spec/30_encoding.md R70), address operands (R71), and
the register file they name (spec/10_state.md R21). There are no immediates (R72). -/

namespace Sys2Proof.Machine

/-- `zext_16(b)` (R17, R71). -/
def zext16 (b : Byte) : Word := BitVec.ofNat 16 b.toNat

/-- `DecodeReg(b)` (R70): a register operand must be 0x01 or 0x02; 0x00, the program counter, is never one. -/
def decodeReg (b : Byte) : Except RaisedFault Byte :=
  if validRegOperand b then .ok b else .error ⟨.invalidRegister, zext16 b⟩

/-- The effective address of an address operand (R71, R88): absolute, zero-extended. -/
def effectiveAddr (a : Byte) : Nat := a.toNat

/-- Read `x[i]` (R21). -/
def regRead (s : State) (i : Byte) : Except RaisedFault Word :=
  if i = Config.pcId then .ok s.pc
  else if i = Config.r1Id then .ok s.r1
  else if i = Config.r2Id then .ok s.r2
  else .error ⟨.invalidRegister, zext16 i⟩

/-- Write `x[i] <- v` (R21). -/
def regWrite (s : State) (i : Byte) (v : Word) : Except RaisedFault State :=
  if i = Config.pcId then .ok { s with pc := v }
  else if i = Config.r1Id then .ok { s with r1 := v }
  else if i = Config.r2Id then .ok { s with r2 := v }
  else .error ⟨.invalidRegister, zext16 i⟩

end Sys2Proof.Machine
end

