-- ==== Sys2Proof/Machine/Flags.lean ====
section
/-! DEFINITION. The arithmetic results. The CORE has no flags and no condition codes (spec/10_state.md R28):
a sum or difference outside 16 bits only wraps, and nothing records it (spec/42_arithmetic.md R92). So this
file holds the two results and no flag computation. -/

namespace Sys2Proof.Machine

/-- `(s + t) mod 2^16` (R90, R92): the exact sum, then reduced. -/
def addResult (s t : Word) : Word := BitVec.ofNat 16 (s.toNat + t.toNat)

/-- `(s - t) mod 2^16` (R91, R92): the exact difference, then reduced. -/
def subResult (s t : Word) : Word := BitVec.ofInt 16 ((s.toNat : Int) - (t.toNat : Int))

end Sys2Proof.Machine
end

