-- ==== Sys2Proof/Machine/Arithmetic.lean ====
section
/-! DEFINITION. ADD and SUB (spec/42_arithmetic.md). -/

namespace Sys2Proof.Machine

/-- The shape ADD and SUB share (R90, R91, R94): ra is checked before rb, both registers are read before the
first is written. -/
def arithBody (f : Word → Word → Word) (ra rb : Byte) (s : State) : Except RaisedFault State := do
  let i ← decodeReg ra
  let j ← decodeReg rb
  let u ← regRead s i
  let w ← regRead s j
  regWrite s i (f u w)

/-- ADD (R90): x[ra] <- (x[ra] + x[rb]) mod 2^16. -/
def execAdd (ra rb : Byte) (s : State) : Host.Outcome State Fault Refusal :=
  finishBody s operandAdvance (arithBody addResult ra rb s)

/-- SUB (R91): x[ra] <- (x[ra] - x[rb]) mod 2^16. -/
def execSub (ra rb : Byte) (s : State) : Host.Outcome State Fault Refusal :=
  finishBody s operandAdvance (arithBody subResult ra rb s)

end Sys2Proof.Machine
end

