-- ==== Sys2Proof/Machine/DataTransfer.lean ====
section
/-! DEFINITION. LOAD and STORE (spec/41_data_transfer.md). -/

namespace Sys2Proof.Machine

/-- The body of LOAD (R85): the register operand is checked before the address. -/
def loadBody (r a : Byte) (m : Memory) (s : State) : Except RaisedFault State := do
  let i ← decodeReg r
  let v ← memReadWord m (effectiveAddr a)
  regWrite s i v

/-- LOAD (R85): x[r] <- M[a] + 256*M[a+1]. -/
def execLoad (r a : Byte) (s : State) : Host.Outcome State Fault Refusal :=
  withImage s fun m => finishBody s operandAdvance (loadBody r a m s)

/-- The body of STORE (R86): the register operand is checked before the address. -/
def storeBody (r a : Byte) (m : Memory) (s : State) : Except RaisedFault State := do
  let i ← decodeReg r
  let v ← regRead s i
  let m' ← memWriteWord m (effectiveAddr a) v
  return { s with mem := some m' }

/-- STORE (R86): M[a] <- x[r][7:0], M[a+1] <- x[r][15:8]. -/
def execStore (r a : Byte) (s : State) : Host.Outcome State Fault Refusal :=
  withImage s fun m => finishBody s operandAdvance (storeBody r a m s)

end Sys2Proof.Machine
end

