-- ==== Sys2Proof/Machine/OutputHalt.lean ====
section
/-! DEFINITION. PRINT and HALT (spec/43_output_and_halt.md). -/

namespace Sys2Proof.Machine

/-- The body of PRINT (R97): emit the word at OUTPUT_ADDR. -/
def printBody (m : Memory) (s : State) : Except RaisedFault State := do
  let v ← memReadWord m Config.outputAddr
  return s.emit v

/-- PRINT (R97): out gains the output word; the advance is PRINT_WIDTH. -/
def execPrint (s : State) : Host.Outcome State Fault Refusal :=
  withImage s fun m => finishBody s printAdvance (printBody m s)

/-- HALT (R98, R107): the pass ends at once, with no advance. -/
def execHalt (s : State) : Host.Outcome State Fault Refusal := .next s.endPass

end Sys2Proof.Machine
end

