-- ==== Sys2Proof/Machine/Fetch.lean ====
section
/-! DEFINITION. Fetching an instruction's bytes and decoding them (spec/44_execution_engine.md R102, R103,
R105; spec/20_memory.md R61). -/

namespace Sys2Proof.Machine

/-- `Fetch(a)` (R102): the byte of the image as it stands, with the bounds check of R40. -/
def fetch (m : Memory) (a : Nat) : Except RaisedFault Byte := memReadByte m a

/-- Up to `n` bytes from address `a`, as many as the image has. -/
def fetchBytes (m : Memory) (a : Nat) : Nat → List Byte
  | 0 => []
  | n + 1 =>
    match fetch m a with
    | .ok b => b :: fetchBytes m (a + 1) n
    | .error _ => []

/-- The bytes of the instruction at `p`, each fetched as needed (R105): the opcode, then its operand bytes,
none after an illegal opcode, PRINT or HALT (R68, R73). -/
def instrBytes (m : Memory) (p : Nat) : List Byte :=
  match fetch m p with
  | .ok op => op :: fetchBytes m (p + 1) (operandCountOf op)
  | .error _ => []

/-- The fault a rejected byte sequence at `p` raises: InvalidInstruction with the offending byte (R122); an
instruction that runs past the memory faults at the first byte that does not exist (R40, R102), which
cannot happen while pc is in the region (R76). -/
def DecodeError.raised (p : Nat) : DecodeError → RaisedFault
  | .invalidInstruction b => ⟨.invalidInstruction, zext16 b⟩
  | .truncated n => ⟨.memoryOutOfBounds, BitVec.ofNat 16 (p + n)⟩

/-- Fetch and decode the instruction at `p` (R103 steps 1 and 2). -/
def fetchInstr (m : Memory) (p : Nat) : Except RaisedFault Instr :=
  match decode (instrBytes m p) with
  | .ok (i, _) => .ok i
  | .error e => .error (DecodeError.raised p e)

end Sys2Proof.Machine
end

