-- ==== Sys2Proof/Machine/HostInterface.lean ====
section
/-! DEFINITION. The operations the CORE offers its caller and the caller's moves between passes
(spec/44_execution_engine.md R111 to R113; spec/20_memory.md R56). `createProcessor` is
`State.createProcessor`. -/

namespace Sys2Proof.Machine

/-- `flushOutput()` (R56): the word at OUTPUT_ADDR of an image. -/
def flushOutput (m : Memory) : Except RaisedFault Word := memReadWord m Config.outputAddr

/-- The call `process(processor, image)` up to its first step (R111): attach the image and run. Refused on a
Faulted processor (R113) and while a pass runs (R112). -/
def State.attach (s : State) (image : Memory) : Host.Outcome State Fault Refusal :=
  match s.run with
  | .idle => .next { s with mem := some image, run := .running }
  | .running => .refused .passInProgress
  | .faulted => .refused .processorFaulted

/-- The host's turn on an Idle processor (R136): its next `process` call, if one is pending. -/
def State.hostTurn (s : State) : Host.Outcome State Fault Refusal :=
  match s.supplied with
  | image :: rest => { s with supplied := rest }.attach image
  | [] => .refused .noImageSupplied

/-- The host decides on one more `process` call (R112, R145). -/
def State.supply (s : State) (image : Memory) : State := { s with supplied := s.supplied ++ [image] }

/-- The caller takes back the oldest image it owns again (R57, R145). -/
def State.takeBack (s : State) : Option (Memory × State) :=
  match s.returned with
  | image :: rest => some (image, { s with returned := rest })
  | [] => none

/-- `s` ready for its next step to fetch the given bytes: a pass is running, pc is in the instruction region
(kept where it is, else at ENTRY), and the bytes stand in the attached image from pc upwards (the image kept
elsewhere; 0x00 everywhere where none was attached). It stands for the caller's load of an image (R144);
notes/assumptions/4.md. -/
def State.loadForFetch (s : State) (bytes : List Byte) : State :=
  let p := if s.pastRegion then Config.entry else s.pc
  { s with
    pc := p
    run := .running
    mem := some (Memory.place (s.mem.getD []) p.toNat bytes) }

end Sys2Proof.Machine
end

