-- ==== Sys2Proof/Machine/Engine.lean ====
section
/-! DEFINITION. The engine step of a running pass (spec/44_execution_engine.md R103), the pass loop and the
whole `process` call (R104, R108, R110, R111). -/

namespace Sys2Proof.Machine

/-- One engine step while a pass runs (R103): the loop test before the fetch (R104), then fetch, decode,
execute. The advance is the instruction's own (`finishBody`), and HALT makes none (R107). -/
def engineStep (s : State) : Host.Outcome State Fault Refusal :=
  if s.pastRegion then .next s.endPass
  else withImage s fun m =>
    match fetchInstr m s.pc.toNat with
    | .ok i => exec i s
    | .error f => .next (s.raise f)

/-- Run engine steps until the pass is over (R108, R120), at most the given number of them. -/
def runPass : Nat → State → Host.Outcome State Fault Refusal
  | 0, s => .next s
  | k + 1, s =>
    match s.run with
    | .running =>
      match engineStep s with
      | .next t => runPass k t
      | .fault f => .fault f
      | .refused r => .refused r
    | .idle => .next s
    | .faulted => .next s

/-- The most engine steps a pass takes (R110): 14 that execute an instruction, and the loop exit. -/
def passSteps : Nat := 15

/-- `process(processor, image)` as the caller sees it (R111): the call and every step of its pass. -/
def processPass (s : State) (image : Memory) : Host.Outcome State Fault Refusal :=
  match s.attach image with
  | .next t => runPass passSteps t
  | .fault f => .fault f
  | .refused r => .refused r

end Sys2Proof.Machine
end

