-- ==== Sys2Proof/Machine/Step.lean ====
section
/-! DEFINITION. The machine's step: an engine step while a pass runs, the host's next `process` call while
Idle, and none once Faulted (spec/44_execution_engine.md R103, R111, R113). -/

namespace Sys2Proof.Machine

/-- One step of the machine. -/
def step (s : State) : Host.Outcome State Fault Refusal :=
  match s.run with
  | .running => engineStep s
  | .idle => s.hostTurn
  | .faulted => .refused .processorFaulted

/-- `s` with the opcode table's `nbits`-bit instruction word `w` stored where the very next step fetches and
runs it: see `State.loadForFetch`. -/
def State.withFetchWord (s : State) (nbits w : Nat) : State := s.loadForFetch (tableBytes nbits w)

end Sys2Proof.Machine
end

