-- ==== Sys2Proof/Machine/Observation.lean ====
section
/-! DEFINITION. What the host sees of a run (spec/44_execution_engine.md R115): when the pass of a `process`
call is finished, what a finished pass shows, and chained runs with their observation. -/

namespace Sys2Proof.Machine

/-- Idle with no fault record: how a pass that did not fault leaves the processor. It says nothing of whether
a pass ran; `PassFinished` does. -/
def State.endedNormally (s : State) : Bool := s.run == .idle && s.fault.isNone

/-- The pass of the call `process(before, image)` is finished in the state `after` (R115): the call returned
there, with the processor Idle and no fault. A processor that ran no pass has finished none, and a pass that
faulted is not finished. -/
def PassFinished (before : State) (image : Memory) (after : State) : Prop :=
  processPass before image = .next after ∧ after.endedNormally = true

/-- What a finished pass shows the host (R115). -/
structure PassObservation where
  /-- The final memory image. -/
  image : Memory
  /-- R1 (test view, R114). -/
  r1 : Word
  /-- R2 (test view, R114). -/
  r2 : Word
  /-- The program counter, 0 after every finished pass. -/
  pc : Word
  /-- The values appended to `out` during the pass, in order. -/
  emitted : List Word
deriving DecidableEq, Repr

/-- What the states before and after a finished pass show (R115): the image last handed back, the registers,
and the emissions beyond those `before` already held. -/
def passShown (before after : State) : Option PassObservation :=
  after.returned.getLast?.map fun image =>
    { image := image
      r1 := after.r1
      r2 := after.r2
      pc := after.pc
      emitted := after.out.drop before.out.length }

/-- The observation of the pass of `process(before, image)`: none unless that pass is finished (R115). -/
def observePass (before : State) (image : Memory) : Option PassObservation :=
  match processPass before image with
  | .next after => if after.endedNormally then passShown before after else none
  | .fault _ => none
  | .refused _ => none

/-- A chained run (R115, R145): one `process` call after another on one processor, each over an image the
host chose, registers carried from each pass into the next. Its observation is the sequence of its finished
passes; beside it stands how the last call left the processor. A call that is refused ends the chain, as every
call after a fault is (R113). -/
def runChain : List Memory → State → List PassObservation × Host.Outcome State Fault Refusal
  | [], s => ([], .next s)
  | image :: rest, s =>
    match processPass s image with
    | .next t => ((observePass s image).toList ++ (runChain rest t).1, (runChain rest t).2)
    | .fault f => ([], .fault f)
    | .refused r => ([], .refused r)

/-- The observation of a chained run (R115): the sequence of its finished passes. -/
def observeChain (images : List Memory) (s : State) : List PassObservation := (runChain images s).1

end Sys2Proof.Machine
end

