-- ==== Sys2Proof/Safety.lean ====
section
/-! DEFINITION. What a run of the machine is judged by: the invariant of its states (spec/10_state.md R25,
R26, R30, R32; spec/60_exceptions.md R120 to R124). When a pass is finished, and what it and a chained run
show the host (spec/44_execution_engine.md R115), is in Machine/Observation.lean. -/

namespace Sys2Proof.Machine

/-- The fault record says what the rules of its kind allow: InvalidInstruction names a byte that is no
opcode (R122), MemoryOutOfBounds an address from 0x14 to 0xFF (R123), InvalidRegister a byte that is
neither 0x01 nor 0x02 (R124); and the faulting opcode stood in the instruction region (R104). Decisions of the
spec: D3 (log 8), D8 and D9 (log 10), D18 (log 11). -/
def FaultRecord.Legal (f : FaultRecord) : Prop :=
  f.pcAtFault ≤ Config.lastInsnAddr ∧
  match f.kind with
  | .invalidInstruction => ∃ b : Byte, f.info = zext16 b ∧ Opcode.ofByte b = none
  | .memoryOutOfBounds => 0x14 ≤ f.info.toNat ∧ f.info.toNat ≤ 0xFF
  | .invalidRegister => ∃ b : Byte, f.info = zext16 b ∧ validRegOperand b = false

/-- The run state, the attached image, the fault record and pc fit together: an image is attached exactly
while a pass runs (R30); there is a fault record exactly when the processor is Faulted (R25, R26), it is
legal, and pc still holds the faulting address (R120); pc is 0 between passes (R108, R142) and at most 0x10
during one (R32). Decisions of the spec: D5 and D6 (log 9) for Idle, D7, D8 and D23 (log 10) for Faulted, D2
(log 7) for the advance behind the bound 0x10. -/
def State.Coherent (s : State) : Prop :=
  match s.run with
  | .idle => s.mem = none ∧ s.fault = none ∧ s.pc = Config.entry
  | .running => s.mem.isSome ∧ s.fault = none ∧ s.pc.toNat ≤ 0x10
  | .faulted => s.mem = none ∧ ∃ f, s.fault = some f ∧ f.Legal ∧ s.pc = f.pcAtFault

/-- Every image the state holds, attached, supplied or returned, is in canonical form: 20 bytes, each at
one address below MEM_SIZE (R53, R57). The form and the two lists are the model's (logs 2 and 4). -/
def State.ImagesWf (s : State) : Prop :=
  (∀ m ∈ s.mem, m.wf) ∧ (∀ m ∈ s.supplied, m.wf) ∧ (∀ m ∈ s.returned, m.wf)

/-- The invariant of the machine. -/
def State.Inv (s : State) : Prop := s.Coherent ∧ s.ImagesWf

end Sys2Proof.Machine
end

