-- ==== Sys2Proof/Certificates/Slice0/Obligations.lean ====
section
/-! DEFINITION. The statements for the provers. Each docstring names the rule or the section of spec/ it
formalises, and says where a clause rests on a decision the spec marks as its own (D<n>). -/

open Sys2Proof Sys2Proof.Machine

/-! ### The word codec and the memory primitives -/

/-- R42: the byte at the lower address is the low-order byte. -/
def Obligations.DecodeWordTakesLowByteFirst : Prop :=
  ∀ low high : Byte, (decodeWord low high).toNat = low.toNat + 256 * high.toNat

/-- R43: low = v mod 256 = v[7:0], high = v div 256 = v[15:8]. -/
def Obligations.EncodeWordSplitsIntoLowAndHigh : Prop :=
  ∀ v : Word, (encodeWord v).1.toNat = v.toNat % 256 ∧ (encodeWord v).2.toNat = v.toNat / 256 ∧
    encodeWord v = (v.extractLsb' 0 8, v.extractLsb' 8 8)

/-- R40: a byte read outside 0x00 to 0x13 raises MemoryOutOfBounds with its address; inside, it is the byte. -/
def Obligations.ByteReadIsBoundsChecked : Prop :=
  ∀ (m : Memory) (a : Word),
    (20 ≤ a.toNat → memReadByte m a.toNat = .error ⟨.memoryOutOfBounds, a⟩) ∧
    (a.toNat < 20 → memReadByte m a.toNat = .ok (m.read a.toNat))

/-- R41: a byte write outside 0x00 to 0x13 raises MemoryOutOfBounds and answers no image; inside, it sets
that byte and no other. -/
def Obligations.ByteWriteSetsOneByte : Prop :=
  ∀ (m : Memory) (a : Word) (v : Byte),
    (20 ≤ a.toNat → memWriteByte m a.toNat v = .error ⟨.memoryOutOfBounds, a⟩) ∧
    (a.toNat < 20 → ∃ m', memWriteByte m a.toNat v = .ok m' ∧ m'.read a.toNat = v ∧
      ∀ b, b ≠ a.toNat → m'.read b = m.read b)

/-- The word read by its address (20_memory.md sections 2 and 4). That the first byte out of range is
reported, unwrapped, is the spec's decision D9 (log 10) and D18 (log 11); that the address may be odd is D11
(log 11). -/
def Obligations.WordReadReportsFirstByteOutOfRange : Prop :=
  ∀ (m : Memory) (a : Byte),
    (a.toNat ≤ 0x12 → memReadWord m a.toNat =
      .ok (BitVec.ofNat 16 ((m.read a.toNat).toNat + 256 * (m.read (a.toNat + 1)).toNat))) ∧
    (a.toNat = 0x13 → memReadWord m a.toNat = .error ⟨.memoryOutOfBounds, 0x14#16⟩) ∧
    (0x14 ≤ a.toNat → memReadWord m a.toNat = .error ⟨.memoryOutOfBounds, zext16 a⟩)

/-- The round trip of 20_memory.md section 2, marked there as derived: a word written at 0x00 to 0x12 and read
back is that word, and every byte outside the two written reads as before. The address may be odd: decision
D11 (log 11). -/
def Obligations.WordWrittenThenReadIsThatWord : Prop :=
  (∀ v : Word, decodeWord (encodeWord v).1 (encodeWord v).2 = v) ∧
  ∀ (m : Memory) (a : Nat) (v : Word), a ≤ 0x12 →
    ∃ m', memWriteWord m a v = .ok m' ∧ memReadWord m' a = .ok v ∧
      ∀ b, b ≠ a → b ≠ a + 1 → m'.read b = m.read b

/-- R56: `flushOutput` reads the word at 0x0E of any image, and never faults. It answers a value and no
image, so it changes none. -/
def Obligations.FlushOutputReadsOutputWord : Prop :=
  ∀ m : Memory, flushOutput m = .ok (BitVec.ofNat 16 ((m.read 0x0E).toNat + 256 * (m.read 0x0F).toNat))

/-- The register file (10_state.md section 1): ids 0x00, 0x01 and 0x02 name pc, R1 and R2, for reading and for
writing, and any other id raises InvalidRegister. That this is a fault kind of its own is the spec's decision
D8 (log 10). -/
def Obligations.RegisterFileHasThreeIds : Prop :=
  ∀ (s : State) (i : Byte) (v : Word),
    (i = 0x00#8 → regRead s i = .ok s.pc ∧ regWrite s i v = .ok { s with pc := v }) ∧
    (i = 0x01#8 → regRead s i = .ok s.r1 ∧ regWrite s i v = .ok { s with r1 := v }) ∧
    (i = 0x02#8 → regRead s i = .ok s.r2 ∧ regWrite s i v = .ok { s with r2 := v }) ∧
    (3 ≤ i.toNat → regRead s i = .error ⟨.invalidRegister, zext16 i⟩ ∧
      regWrite s i v = .error ⟨.invalidRegister, zext16 i⟩)

/-! ### The instructions -/

/-- LOAD's encoding, its result for each register at every address 0x00 to 0x12, its faults and their order
(41_data_transfer.md, LOAD). The next state is given whole, so everything it does not name is unchanged,
memory among it. The spec's own decisions here: that operand 0x00 is invalid (D3, log 8), the order of the
checks and the byte reported at 0x13 (D9, D18, logs 10 and 11), that an address may be odd (D11, log 11), and
what `raise` leaves (D7, D8, D23, log 10). -/
def Obligations.LoadCopiesWordIntoRegister : Prop :=
  ∀ (s : State) (m : Memory) (r a : Byte), s.mem = some m →
    encode (.load r a) = [0x01#8, r, a] ∧
    (r = 0x01#8 → a.toNat ≤ 0x12 → exec (.load r a) s = .next { s with
      r1 := BitVec.ofNat 16 ((m.read a.toNat).toNat + 256 * (m.read (a.toNat + 1)).toNat)
      pc := s.pc + 3#16 }) ∧
    (r = 0x02#8 → a.toNat ≤ 0x12 → exec (.load r a) s = .next { s with
      r2 := BitVec.ofNat 16 ((m.read a.toNat).toNat + 256 * (m.read (a.toNat + 1)).toNat)
      pc := s.pc + 3#16 }) ∧
    (r ≠ 0x01#8 → r ≠ 0x02#8 → exec (.load r a) s = .next (s.raise ⟨.invalidRegister, zext16 r⟩)) ∧
    (r = 0x01#8 ∨ r = 0x02#8 → 0x14 ≤ a.toNat →
      exec (.load r a) s = .next (s.raise ⟨.memoryOutOfBounds, zext16 a⟩)) ∧
    (r = 0x01#8 ∨ r = 0x02#8 → a.toNat = 0x13 →
      exec (.load r a) s = .next (s.raise ⟨.memoryOutOfBounds, 0x14#16⟩))

/-- STORE (41_data_transfer.md, STORE; 20_memory.md section 2): its result for each register at every address
0x00 to 0x12, with the two bytes written and no other byte of memory changed, its faults and their order. The
spec's own decisions here: that operand 0x00 is invalid (D3, log 8), the order of the checks and the byte
reported at 0x13 (D9, D18, logs 10 and 11), that a faulting STORE writes no byte (D10, log 10), that an
address may be odd (D11, log 11), and what `raise` leaves (D7, D8, D23, log 10). -/
def Obligations.StoreCopiesRegisterIntoWord : Prop :=
  ∀ (s : State) (m : Memory) (r a : Byte) (v : Word), s.mem = some m →
    encode (.store r a) = [0x02#8, r, a] ∧
    ((r = 0x01#8 ∧ v = s.r1) ∨ (r = 0x02#8 ∧ v = s.r2) →
      (a.toNat ≤ 0x12 → ∃ m', exec (.store r a) s = .next { s with mem := some m', pc := s.pc + 3#16 } ∧
        m'.read a.toNat = BitVec.ofNat 8 (v.toNat % 256) ∧
        m'.read (a.toNat + 1) = BitVec.ofNat 8 (v.toNat / 256) ∧
        ∀ b, b ≠ a.toNat → b ≠ a.toNat + 1 → m'.read b = m.read b) ∧
      (0x14 ≤ a.toNat → exec (.store r a) s = .next (s.raise ⟨.memoryOutOfBounds, zext16 a⟩)) ∧
      (a.toNat = 0x13 → exec (.store r a) s = .next (s.raise ⟨.memoryOutOfBounds, 0x14#16⟩))) ∧
    (r ≠ 0x01#8 → r ≠ 0x02#8 → exec (.store r a) s = .next (s.raise ⟨.invalidRegister, zext16 r⟩))

/-- ADD's encoding, its result for every pair of registers (the same register twice among them), its faults
and their order (42_arithmetic.md, ADD). The next state is given whole, so memory, out and the other register
are unchanged. The spec's own decisions here: that operand 0x00 is invalid (D3, log 8), that ra is checked
before rb (D9, log 10), and what `raise` leaves (D7, D8, D23, log 10). -/
def Obligations.AddWrapsModuloTwoToTheSixteen : Prop :=
  ∀ (s : State) (ra rb : Byte),
    encode (.add ra rb) = [0x03#8, ra, rb] ∧
    (ra = 0x01#8 → rb = 0x01#8 → exec (.add ra rb) s = .next { s with
      r1 := BitVec.ofNat 16 ((s.r1.toNat + s.r1.toNat) % 65536), pc := s.pc + 3#16 }) ∧
    (ra = 0x01#8 → rb = 0x02#8 → exec (.add ra rb) s = .next { s with
      r1 := BitVec.ofNat 16 ((s.r1.toNat + s.r2.toNat) % 65536), pc := s.pc + 3#16 }) ∧
    (ra = 0x02#8 → rb = 0x01#8 → exec (.add ra rb) s = .next { s with
      r2 := BitVec.ofNat 16 ((s.r2.toNat + s.r1.toNat) % 65536), pc := s.pc + 3#16 }) ∧
    (ra = 0x02#8 → rb = 0x02#8 → exec (.add ra rb) s = .next { s with
      r2 := BitVec.ofNat 16 ((s.r2.toNat + s.r2.toNat) % 65536), pc := s.pc + 3#16 }) ∧
    (ra ≠ 0x01#8 → ra ≠ 0x02#8 → exec (.add ra rb) s = .next (s.raise ⟨.invalidRegister, zext16 ra⟩)) ∧
    (ra = 0x01#8 ∨ ra = 0x02#8 → rb ≠ 0x01#8 → rb ≠ 0x02#8 →
      exec (.add ra rb) s = .next (s.raise ⟨.invalidRegister, zext16 rb⟩))

/-- SUB's encoding, its result for every pair of registers: the difference if it is not negative, else the
difference plus 65536; 0 for the same register twice; its faults and their order (42_arithmetic.md, SUB). The
next state is given whole. The spec's own decisions here: that operand 0x00 is invalid (D3, log 8), that ra is
checked before rb (D9, log 10), and what `raise` leaves (D7, D8, D23, log 10). -/
def Obligations.SubWrapsModuloTwoToTheSixteen : Prop :=
  ∀ (s : State) (ra rb : Byte),
    encode (.sub ra rb) = [0x04#8, ra, rb] ∧
    (ra = 0x01#8 → rb = 0x01#8 → exec (.sub ra rb) s = .next { s with r1 := 0x0000#16, pc := s.pc + 3#16 }) ∧
    (ra = 0x01#8 → rb = 0x02#8 → exec (.sub ra rb) s = .next { s with
      r1 := BitVec.ofNat 16 (if s.r2.toNat ≤ s.r1.toNat then s.r1.toNat - s.r2.toNat
        else s.r1.toNat + 65536 - s.r2.toNat)
      pc := s.pc + 3#16 }) ∧
    (ra = 0x02#8 → rb = 0x01#8 → exec (.sub ra rb) s = .next { s with
      r2 := BitVec.ofNat 16 (if s.r1.toNat ≤ s.r2.toNat then s.r2.toNat - s.r1.toNat
        else s.r2.toNat + 65536 - s.r1.toNat)
      pc := s.pc + 3#16 }) ∧
    (ra = 0x02#8 → rb = 0x02#8 → exec (.sub ra rb) s = .next { s with r2 := 0x0000#16, pc := s.pc + 3#16 }) ∧
    (ra ≠ 0x01#8 → ra ≠ 0x02#8 → exec (.sub ra rb) s = .next (s.raise ⟨.invalidRegister, zext16 ra⟩)) ∧
    (ra = 0x01#8 ∨ ra = 0x02#8 → rb ≠ 0x01#8 → rb ≠ 0x02#8 →
      exec (.sub ra rb) s = .next (s.raise ⟨.invalidRegister, zext16 rb⟩))

/-- PRINT (43_output_and_halt.md, PRINT): the word at 0x0E, the one `flushOutput` reads, is appended to out
and pc advances by 1. The advance rests on PRINT_WIDTH = 1 (D2, log 7), the output list on D16 (log 14), and
no byte after the opcode is its own by D17 (log 12). The next state is given whole, so registers and memory
are unchanged. -/
def Obligations.PrintEmitsOutputWord : Prop :=
  ∀ (s : State) (m : Memory), s.mem = some m →
    encode .print = [0x05#8] ∧
    ∃ v, flushOutput m = .ok v ∧
      v = BitVec.ofNat 16 ((m.read 0x0E).toNat + 256 * (m.read 0x0F).toNat) ∧
      exec .print s = .next { s with out := s.out ++ [v], pc := s.pc + 1#16 }

/-- HALT (43_output_and_halt.md, HALT): it is one byte and no byte after it is fetched; it ends the pass with
no advance, exactly as the end of the region does; R1, R2 and the image's bytes stay, and the caller may start
a new pass. The spec's own decisions here: no operand fetch (D17, log 12) and run = Idle after a pass (D6, log
9); the list of images handed back is the model's own field (log 4). -/
def Obligations.HaltEndsPass : Prop :=
  encode .halt = [0xFF#8] ∧
  (∀ (m : Memory) (p : Nat), p ≤ 0x0D → m.read p = 0xFF#8 → instrBytes m p = [0xFF#8]) ∧
  ∀ s : State, ∃ t, exec .halt s = .next t ∧
    t = { s with pc := 0x0000#16, run := .idle, mem := none, returned := s.returned ++ s.mem.toList } ∧
    (s.run = .running → 0x0D < s.pc.toNat → step s = .next t) ∧
    ∀ image, t.attach image = .next { t with mem := some image, run := .running }

/-- The end of a pass (44_execution_engine.md section 4): on HALT and on the loop test failing alike, pc
becomes 0, the image goes back to the caller as the pass left it, run becomes Idle, and R1, R2, out and fault
are unchanged. That the state between passes is Idle is the spec's decision D6 (log 9); the lists of pending
and returned images are the model's own fields (log 4). -/
def Obligations.EndOfPassReturnsImageAndClearsPc : Prop :=
  ∀ (s : State) (m : Memory), s.run = .running → s.mem = some m →
    (s.pc.toNat ≤ 0x0D ∧ m.read s.pc.toNat = 0xFF#8) ∨ 0x0D < s.pc.toNat →
    ∃ t, step s = .next t ∧ t.pc = 0x0000#16 ∧ t.mem = none ∧ t.returned = s.returned ++ [m] ∧
      t.run = .idle ∧ t.r1 = s.r1 ∧ t.r2 = s.r2 ∧ t.out = s.out ∧ t.fault = s.fault ∧ t.supplied = s.supplied

/-! ### Encoding -/

/-- Decode and encode agree (30_encoding.md sections 1 to 5), with every operand byte at every value: a byte
sequence decodes to an instruction and the bytes after it exactly when it is that instruction's encoding
followed by them. So no encoding is ambiguous and no bit of one is dropped. That PRINT and HALT are one byte
long is the spec's decision D2 (log 7) and D17 (log 12); that the decoder keeps a register byte and the
instruction's body checks it is log 8 (D3). -/
def Obligations.DecodeInvertsEncode : Prop :=
  ∀ (bs rest : List Byte) (i : Instr), decode bs = .ok (i, rest) ↔ bs = encode i ++ rest

/-- Words of each family written out from 30_encoding.md sections 1, 2 and 6 decode to what they stand for.
That PRINT and HALT are one byte long is the spec's decision D2 (log 7) and D17 (log 12). -/
def Obligations.WrittenOutWordsDecode : Prop :=
  decode [0x01#8, 0x01#8, 0x10#8] = .ok (.load 0x01#8 0x10#8, []) ∧
  decode [0x02#8, 0x01#8, 0x0E#8] = .ok (.store 0x01#8 0x0E#8, []) ∧
  decode [0x03#8, 0x01#8, 0x02#8] = .ok (.add 0x01#8 0x02#8, []) ∧
  decode [0x04#8, 0x02#8, 0x01#8] = .ok (.sub 0x02#8 0x01#8, []) ∧
  decode [0x05#8, 0x00#8, 0x00#8] = .ok (.print, [0x00#8, 0x00#8]) ∧
  decode [0xFF#8] = .ok (.halt, [])

/-- Illegal opcodes (30_encoding.md section 4, 60_exceptions.md section 2): 250 opcode bytes are illegal, 0x00
among them; fetching one raises InvalidInstruction with that byte, before any operand byte is fetched; no
instruction's own execution raises it, and a step that leaves a new record of it had such a byte at pc. The
spec's own decisions here: code 1 and the record's form (D8, log 10), and what `raise` leaves (D7, D8, D23,
log 10). -/
def Obligations.IllegalOpcodeRaisesInvalidInstruction : Prop :=
  FaultKind.code .invalidInstruction = 1 ∧
  (∀ b : Byte, Opcode.ofByte b = none ↔ (b = 0x00#8 ∨ (0x06#8 ≤ b ∧ b ≤ 0xFE#8))) ∧
  ((List.range 256).filter fun n => (Opcode.ofByte (BitVec.ofNat 8 n)).isNone).length = 250 ∧
  (∀ (s : State) (m : Memory), s.run = .running → s.mem = some m → s.pc.toNat ≤ 0x0D →
    Opcode.ofByte (m.read s.pc.toNat) = none →
    instrBytes m s.pc.toNat = [m.read s.pc.toNat] ∧
    step s = .next (s.raise ⟨.invalidInstruction, zext16 (m.read s.pc.toNat)⟩)) ∧
  (∀ (i : Instr) (s t : State), exec i s = .next t → t.fault ≠ s.fault →
    ∃ f, t.fault = some f ∧ f.kind ≠ .invalidInstruction) ∧
  (∀ (s t : State) (f : FaultRecord), step s = .next t → t.fault ≠ s.fault → t.fault = some f →
    f.kind = .invalidInstruction →
    s.run = .running ∧ s.pc.toNat ≤ 0x0D ∧
      ∃ m, s.mem = some m ∧ Opcode.ofByte (m.read s.pc.toNat) = none ∧
        f.info = zext16 (m.read s.pc.toNat) ∧ f.pcAtFault = s.pc)

/-! ### The engine -/

/-- 44_execution_engine.md section 3: while a pass runs and pc is in the instruction region, a step whose
bytes at pc decode to an instruction is that instruction's execution. The bytes are those of the image as it
stands; an instruction at 0x0C or 0x0D takes operands from the output region. That an opcode may stand at any
byte address is the spec's decision D11 (log 11), that the fetch reads the image as it stands D12 (log 12). -/
def Obligations.StepRunsDecodedInstruction : Prop :=
  ∀ (s : State) (m : Memory) (i : Instr) (rest : List Byte),
    s.run = .running → s.mem = some m → s.pc.toNat ≤ 0x0D →
    decode [m.read s.pc.toNat, m.read (s.pc.toNat + 1), m.read (s.pc.toNat + 2)] = .ok (i, rest) →
    step s = exec i s

/-- The advance (44_execution_engine.md section 3): a step after which the pass still runs has advanced pc by
PRINT_WIDTH = 1 if its opcode is PRINT's, else by 3, without wrapping. The width 1 is the spec's own decision
D2 against the source's doubt (log 7). -/
def Obligations.StepAdvancesByInstructionWidth : Prop :=
  ∀ (s t : State) (m : Memory), s.run = .running → s.mem = some m → step s = .next t → t.run = .running →
    (m.read s.pc.toNat = 0x05#8 → t.pc.toNat = s.pc.toNat + 1) ∧
    (m.read s.pc.toNat ≠ 0x05#8 → t.pc.toNat = s.pc.toNat + 3) ∧
    t.pc.toNat ≤ 0x10

/-- Taking a fault (60_exceptions.md section 1, the spec's decisions D7, D8, D10, D23): the record holds the
kind, the faulting instruction's address and the info; the processor is Faulted; the image goes back to the
caller unchanged; pc, R1, R2 and out stay (log 10). The list of images handed back is the model's own field
(log 4). -/
def Obligations.TakingFaultWritesRecordOnly : Prop :=
  ∀ (s : State) (f : RaisedFault),
    s.raise f = { s with
      fault := some { kind := f.kind, pcAtFault := s.pc, info := f.info }
      run := .faulted
      mem := none
      returned := s.returned ++ s.mem.toList }

/-- A Faulted processor (60_exceptions.md section 4, decision D7, log 10; the outcome is log 5): it takes no
step and refuses every `process` call. -/
def Obligations.FaultedProcessorNeverRunsAgain : Prop :=
  ∀ s : State, s.run = .faulted →
    step s = .refused .processorFaulted ∧
    (∀ image, s.attach image = .refused .processorFaulted) ∧
    (∀ image, processPass s image = .refused .processorFaulted)

/-- An Idle processor (44_execution_engine.md section 5; the queue of calls is the model's, log 4): its step
is the host's next `process` call, which attaches the image and runs; with no call pending it takes none. The
run state Idle is the spec's decision D6, and that the call leaves pc as it is D21 (log 9). -/
def Obligations.IdleProcessorTakesNextCall : Prop :=
  ∀ s : State, s.run = .idle →
    (∀ image rest, s.supplied = image :: rest →
      step s = .next { s with supplied := rest, mem := some image, run := .running }) ∧
    (s.supplied = [] → step s = .refused .noImageSupplied)

/-- The reset state (70_reset_and_hazards.md section 1; the spec's decisions: pc D5 and run D6, log 9; fault
D8, log 10; out D16, log 14; the open register values D4): for every R1_INIT and R2_INIT. `State.reset` is one
such state; its own two values are the model's choice (log 1) and stand in no clause here. The two queues are
the model's (log 4). -/
def Obligations.CreatedProcessorIsIdleAtEntry : Prop :=
  (∀ u w : Word, State.createProcessor u w =
    { pc := 0x0000#16, r1 := u, r2 := w, run := .idle, fault := none, out := [], mem := none
      supplied := [], returned := [] }) ∧
  ∃ u w, State.reset = State.createProcessor u w

/-- Every created processor meets the invariant, and so does `State.reset` (70_reset_and_hazards.md section 1,
10_state.md section 4). Decisions of the spec: pc = 0 at creation (D5, log 9, unsafe), the run state Idle (D6,
log 9) and no fault record (D8, log 10). Choices of the model: the canonical form of an image (log 2) and the
lists of pending and handed-back images, empty at creation (log 4). -/
def Obligations.ResetMeetsInvariant : Prop :=
  (∀ u w : Word, (State.createProcessor u w).Inv) ∧ State.reset.Inv

/-- The headline invariant: every step keeps run, mem, fault and pc fitting together, the fault record legal
for its kind, and every image a whole canonical image of 20 bytes. The sections it follows are 10_state.md 1, 3
and 4, 20_memory.md 6 and 60_exceptions.md 1 and 2; what rests on a decision or a choice is:
* Faulted: the permanent state without an image (D7), the record (D8), the order of checks it reports (D9) and
  pc kept at the faulting instruction (D23), all log 10, unsafe for claims about faulted states; the operand
  0x00 as an invalid register (D3, log 8) and the addresses of MemoryOutOfBounds (D18, log 11).
* Idle: the run state (D6, log 9) with pc = 0, which a new processor has by D5 (log 9, unsafe).
* Running: pc at most 0x10 by advances of 1 or 3, the 1 being PRINT's width (D2, log 7, unsafe).
* Images: the canonical form (log 2) and the lists of pending and handed-back images (log 4) are the model's. -/
def Obligations.EveryStepKeepsInvariant : Prop :=
  ∀ s t : State, s.Inv → step s = .next t → t.Inv

/-- 93_implementation_defined.md section 1: a processor whose pass runs is never stuck. It always steps;
the model's own stop `noImageAttached` (log 6) is never met; a refusal comes only from a Faulted processor
(D7, log 5) or an Idle one with no call pending (log 4). Its premise is the invariant, whose decisions and
choices `EveryStepKeepsInvariant` names. -/
def Obligations.RunningPassIsNeverStuck : Prop :=
  ∀ s : State, s.Inv →
    (s.run = .running → ∃ t, step s = .next t) ∧
    (∀ f, step s ≠ .fault f) ∧
    (∀ r, step s = .refused r → s.run = .faulted ∨ (s.run = .idle ∧ s.supplied = []))

/-- 44_execution_engine.md section 4: from the start of any pass over any image, after 14 steps, or fewer
where the pass ends, either the pass is over or pc is past the instruction region, where the very next step
ends the pass. The spec's decisions here: PRINT's advance by 1 (D2, log 7, unsafe), Idle after a pass (D6, log
9), the end by a fault (D7, log 10) and one step per instruction (D13, log 15). -/
def Obligations.EveryPassEndsWithinFourteenInstructions : Prop :=
  ∀ (s : State) (m : Memory), s.run = .running → s.mem = some m → s.pc = 0x0000#16 →
    ∃ t, runPass 14 s = .next t ∧
      (t.run ≠ .running ∨ (0x0D < t.pc.toNat ∧ step t = .next t.endPass))

/-- 44_execution_engine.md sections 4, 5 and 6, 60_exceptions.md section 1: a `process` call on an Idle
processor with pc = 0 and no fault always returns, for every image: the pass is finished with pc = 0, or the
processor is Faulted with a record of an opcode address in the region. The image handed back is the call's
own, as the pass left it: it is the one attached when the pass took its last step, it is canonical if the
call's is, and every byte in which it differs from the call's was the target of a STORE the pass fetched. The
emissions before the call stay. The spec's own decisions here: a fault is final and leaves its record (D7,
D8), hands back the image as it was before the faulting step (D7, D10) and keeps pc at the faulting
instruction (D23), all log 10, unsafe for claims about faulted states; what a finished pass is (D24, log 15)
and its Idle state (D6, log 9); PRINT's advance by 1 behind the bound of 14 (D2, log 7, unsafe); the image as
it stands at each fetch (D12, log 12). The model's own: the canonical form (log 2) and the lists of pending
and returned images (log 4). -/
def Obligations.ProcessCallAlwaysReturns : Prop :=
  ∀ (s : State) (image : Memory), s.run = .idle → s.pc = 0x0000#16 → s.fault = none →
    ∃ t image', processPass s image = .next t ∧ t.mem = none ∧ t.returned = s.returned ++ [image'] ∧
      t.supplied = s.supplied ∧ s.out <+: t.out ∧
      ((PassFinished s image t ∧ t.pc = 0x0000#16) ∨
       (t.run = .faulted ∧ ∃ f, t.fault = some f ∧ f.pcAtFault = t.pc ∧ t.pc.toNat ≤ 0x0D)) ∧
      (∃ k u, k ≤ 14 ∧ runPass k { s with mem := some image, run := .running } = .next u ∧
        u.run = .running ∧ u.mem = some image' ∧ step u = .next t) ∧
      (image.wf = true → image'.wf = true) ∧
      ∀ b, image'.read b ≠ image.read b →
        b < 0x14 ∧ ∃ k u m, k ≤ 13 ∧ runPass k { s with mem := some image, run := .running } = .next u ∧
          u.run = .running ∧ u.mem = some m ∧ u.pc.toNat ≤ 0x0D ∧ m.read u.pc.toNat = 0x02#8 ∧
          (b = (m.read (u.pc.toNat + 2)).toNat ∨ b = (m.read (u.pc.toNat + 2)).toNat + 1)

/-- The machine's own steps are the `process` call (44_execution_engine.md sections 3 and 5): from an Idle
processor at pc = 0 with an image pending, some number of steps of the machine, at most 16, answers exactly
the state in which the whole call returns. The queue of pending images is the model's own field (log 4). The
spec's decisions here: PRINT's advance by 1 behind the bound (D2, log 7, unsafe), Idle after a pass (D6, log
9) and the end by a fault (D7, log 10). -/
def Obligations.MachineStepsRunWholeProcessCall : Prop :=
  ∀ (s : State) (image : Memory) (rest : List Memory), s.run = .idle → s.pc = 0x0000#16 →
    s.supplied = image :: rest →
    ∃ k t, k ≤ 16 ∧ Sys2Proof.core.run k s = .next t ∧ t.run ≠ .running ∧
      processPass { s with supplied := rest } image = .next t

/-- 44_execution_engine.md section 6 (the definition of a finished pass is the spec's decision D24, log 15): a
pass has an observation exactly if it is finished, and it is then the final image, the registers, pc = 0 and
the values emitted during the pass, in order. A faulted pass and a refused call have none. The list of images
handed back is the model's own field (log 4). The spec's other decisions here: Idle after a pass (D6, log 9),
the end by a fault (D7, log 10), the test view of the registers (D15, log 13) and the output list (D16, log
14). -/
def Obligations.ObservationIsOfFinishedPass : Prop :=
  ∀ (s : State) (image : Memory),
    (∀ o, observePass s image = some o ↔ ∃ t, PassFinished s image t ∧ t.returned = s.returned ++ [o.image] ∧
      t.r1 = o.r1 ∧ t.r2 = o.r2 ∧ t.pc = o.pc ∧ o.pc = 0x0000#16 ∧ t.out = s.out ++ o.emitted) ∧
    (∀ t, processPass s image = .next t → t.run = .faulted → observePass s image = none) ∧
    (s.run ≠ .idle → observePass s image = none)

/-- 44_execution_engine.md section 6 (decision D24, log 15): a chained run observes each finished pass and
goes on from the state it left, R1 and R2 with it; after a pass that faulted it observes nothing more, and
every further call is refused (D7, logs 5 and 10). The registers are the test view (D15, log 13). -/
def Obligations.ChainedRunObservesFinishedPasses : Prop :=
  ∀ (s : State) (image : Memory) (rest : List Memory),
    (∀ t, PassFinished s image t → ∃ o, observePass s image = some o ∧ o.r1 = t.r1 ∧ o.r2 = t.r2 ∧
      observeChain (image :: rest) s = o :: observeChain rest t ∧
      (runChain (image :: rest) s).2 = (runChain rest t).2) ∧
    (∀ t, processPass s image = .next t → t.run = .faulted →
      observeChain (image :: rest) s = [] ∧
      (rest = [] → (runChain (image :: rest) s).2 = .next t) ∧
      (rest ≠ [] → (runChain (image :: rest) s).2 = .refused .processorFaulted))

/-- 44_execution_engine.md sections 5 and 6 (the spec's decisions D6, log 9; D7, logs 5 and 10; D24, log 15):
for every sequence of images, a chained run on an Idle processor with pc = 0 and no fault observes one pass
per image and leaves such a processor again, or observes fewer, one of its passes having faulted: the
processor is then Faulted, or a call after the fault is refused. -/
def Obligations.ChainedRunIsCompleteOrFaults : Prop :=
  ∀ (images : List Memory) (s : State), s.run = .idle → s.pc = 0x0000#16 → s.fault = none →
    ((observeChain images s).length = images.length ∧
      ∃ t, (runChain images s).2 = .next t ∧ t.run = .idle ∧ t.pc = 0x0000#16 ∧ t.fault = none) ∨
    ((observeChain images s).length < images.length ∧
      ((∃ t, (runChain images s).2 = .next t ∧ t.run = .faulted) ∨
       (runChain images s).2 = .refused .processorFaulted))

/-! ### What no step can do -/

/-- Only STORE changes memory, and only its two bytes (20_memory.md sections 5 and 6; the frame of the other
instructions in 41_data_transfer.md, 42_arithmetic.md and 43_output_and_halt.md). The effective address is
zero-extended and the next one unwrapped by the spec's decision D18 (log 11). A step that faults leaves no
image attached (D7, log 10): `ImagesOfTheCallerAreNeverTouched` speaks of its image. -/
def Obligations.OnlyStoreChangesMemory : Prop :=
  ∀ (i : Instr) (s t : State) (m m' : Memory) (b : Nat), exec i s = .next t → s.mem = some m →
    t.mem = some m' → m'.read b ≠ m.read b →
    ∃ r a, i = .store r a ∧ (b = effectiveAddr a ∨ b = effectiveAddr a + 1) ∧ b < 0x14

/-- Only LOAD, ADD and SUB change a register, and only the one their first operand names (10_state.md section
1). That a fault changes neither register is the spec's decision D7 and D23 (log 10). -/
def Obligations.OnlyDestinationRegisterChanges : Prop :=
  ∀ (i : Instr) (s t : State), exec i s = .next t →
    (t.r1 ≠ s.r1 → (∃ a, i = .load 0x01#8 a) ∨ (∃ rb, i = .add 0x01#8 rb) ∨ (∃ rb, i = .sub 0x01#8 rb)) ∧
    (t.r2 ≠ s.r2 → (∃ a, i = .load 0x02#8 a) ∨ (∃ rb, i = .add 0x02#8 rb) ∨ (∃ rb, i = .sub 0x02#8 rb))

/-- The output sequence (10_state.md section 2, decision D16, log 14): every step leaves it or, where the
opcode at pc is PRINT's, appends the output word of the attached image. That a fault leaves the sequence is
decision D7 and D23 (log 10). -/
def Obligations.OutputGrowsOnlyByPrint : Prop :=
  ∀ s t : State, step s = .next t →
    t.out = s.out ∨
    (s.run = .running ∧ ∃ m, s.mem = some m ∧ m.read s.pc.toNat = 0x05#8 ∧
      t.out = s.out ++ [BitVec.ofNat 16 ((m.read 0x0E).toNat + 256 * (m.read 0x0F).toNat)])

/-- No instruction reads the output sequence (10_state.md section 2; an unbounded list by decision D16, log
14): two processors that differ only in earlier emissions take the same step, and differ after it only in
those emissions. -/
def Obligations.EarlierOutputNeverInfluencesStep : Prop :=
  ∀ (s : State) (earlier : List Word),
    step { s with out := earlier ++ s.out } =
      match step s with
      | .next t => .next { t with out := earlier ++ t.out }
      | .fault f => .fault f
      | .refused r => .refused r

/-- R1 and R2 persist (R27; where a pass ends in a fault it is R120, the spec's decisions D7 and D23, log 10):
no step that ends a pass, normally or by a fault, and no step that starts one changes R1 or R2; the normal end
of a pass writes pc, of the three registers, and only pc. The Idle state after a normal end is decision D6
(log 9). -/
def Obligations.RegistersPersistAcrossPasses : Prop :=
  ∀ s t : State, step s = .next t → (s.run = .idle ∨ t.run ≠ .running) → t.r1 = s.r1 ∧ t.r2 = s.r2 ∧ (t.run = .idle → t.pc = 0x0000#16)

/-- 10_state.md section 3, 44_execution_engine.md section 5, 60_exceptions.md section 1 (the two lists are the
model's own fields, log 4): an image handed back, and the host's coming images, are out of the engine's reach:
every step only appends to the images handed back, and only takes the next call from the coming ones, when
Idle. The image handed back is the one the last step found attached. That this is so of a step that faults, a
STORE among them, is the spec's decision D7 and D10 (log 10, unsafe for claims about faulted states); the Idle
state after a normal end is D6 (log 9). -/
def Obligations.ImagesOfTheCallerAreNeverTouched : Prop :=
  ∀ s t : State, step s = .next t →
    s.returned <+: t.returned ∧ t.supplied <:+ s.supplied ∧
    (s.run = .running → t.supplied = s.supplied ∧ ∀ m, s.mem = some m →
      (t.run = .running ∧ t.returned = s.returned) ∨ (t.run ≠ .running ∧ t.returned = s.returned ++ [m]))

/-! ### Laws of the families -/

/-- The law of 41_data_transfer.md, marked there as derived: LOAD then STORE of one register at one address
leaves every byte of memory as it was, and a canonical image the very same. The address may be odd: decision
D11 (log 11). The canonical form is the model's (log 2). -/
def Obligations.LoadThenStoreLeavesMemoryUnchanged : Prop :=
  ∀ (s : State) (m : Memory) (r a : Byte), s.mem = some m → r = 0x01#8 ∨ r = 0x02#8 → a.toNat ≤ 0x12 →
    ∃ t u m', exec (.load r a) s = .next t ∧ exec (.store r a) t = .next u ∧ u.mem = some m' ∧
      (∀ b, m'.read b = m.read b) ∧ (m.wf = true → m' = m) ∧
      (r = 0x01#8 →
        u.r1 = BitVec.ofNat 16 ((m.read a.toNat).toNat + 256 * (m.read (a.toNat + 1)).toNat)) ∧
      (r = 0x02#8 →
        u.r2 = BitVec.ofNat 16 ((m.read a.toNat).toNat + 256 * (m.read (a.toNat + 1)).toNat))

/-- The law of 42_arithmetic.md, marked there as derived: ADD r1, r2 then ADD r2, r1 from (u, w) ends in
(u + w, u + 2w) modulo 2^16, which are equal only when w is 0 (90_conflicts.md C5). -/
def Obligations.AddThenAddBackIsNotEqualising : Prop :=
  ∀ s : State, ∃ t v, exec (.add 0x01#8 0x02#8) s = .next t ∧ exec (.add 0x02#8 0x01#8) t = .next v ∧
    v.r1.toNat = (s.r1.toNat + s.r2.toNat) % 65536 ∧
    v.r2.toNat = (s.r1.toNat + 2 * s.r2.toNat) % 65536 ∧
    (v.r1 = v.r2 ↔ s.r2 = 0x0000#16)

/-- 20_memory.md section 7 (decision D12, log 12; odd addresses: D11, log 11): a STORE executed at pc is seen
by the very next fetch. Where the image after it, the old one with the register's two bytes at the store's
address, decodes at pc + 3 to an instruction, the next step runs that instruction. -/
def Obligations.StoreIsSeenByNextFetch : Prop :=
  ∀ (s t : State) (m : Memory) (r a : Byte) (v : Word), s.run = .running → s.mem = some m →
    s.pc.toNat ≤ 0x0A → (r = 0x01#8 ∧ v = s.r1) ∨ (r = 0x02#8 ∧ v = s.r2) → a.toNat ≤ 0x12 →
    exec (.store r a) s = .next t →
    ∃ m', t.mem = some m' ∧
      (∀ b, m'.read b = if b = a.toNat then BitVec.ofNat 8 (v.toNat % 256)
        else if b = a.toNat + 1 then BitVec.ofNat 8 (v.toNat / 256) else m.read b) ∧
      ∀ i rest, decode [m'.read (s.pc.toNat + 3), m'.read (s.pc.toNat + 4), m'.read (s.pc.toNat + 5)] =
        .ok (i, rest) → step t = exec i t
end

