-- ==== Sys2Proof/Laws/State.lean ====
section
/-! SUPPORT. What each update of the state leaves in each field. -/

namespace Sys2Proof.Machine

@[simp] theorem State.raise_pc (s : State) (f : RaisedFault) : (s.raise f).pc = s.pc := rfl
@[simp] theorem State.raise_r1 (s : State) (f : RaisedFault) : (s.raise f).r1 = s.r1 := rfl
@[simp] theorem State.raise_r2 (s : State) (f : RaisedFault) : (s.raise f).r2 = s.r2 := rfl
@[simp] theorem State.raise_run (s : State) (f : RaisedFault) : (s.raise f).run = .faulted := rfl
@[simp] theorem State.raise_fault (s : State) (f : RaisedFault) : (s.raise f).fault = some ⟨f.kind, s.pc, f.info⟩ := rfl
@[simp] theorem State.raise_out (s : State) (f : RaisedFault) : (s.raise f).out = s.out := rfl
@[simp] theorem State.raise_mem (s : State) (f : RaisedFault) : (s.raise f).mem = none := rfl
@[simp] theorem State.raise_supplied (s : State) (f : RaisedFault) : (s.raise f).supplied = s.supplied := rfl
@[simp] theorem State.raise_returned (s : State) (f : RaisedFault) : (s.raise f).returned = s.handedBack := rfl

@[simp] theorem State.advance_pc (s : State) (n : Nat) : (s.advance n).pc = s.pc + BitVec.ofNat 16 n := rfl
@[simp] theorem State.advance_r1 (s : State) (n : Nat) : (s.advance n).r1 = s.r1 := rfl
@[simp] theorem State.advance_r2 (s : State) (n : Nat) : (s.advance n).r2 = s.r2 := rfl
@[simp] theorem State.advance_run (s : State) (n : Nat) : (s.advance n).run = s.run := rfl
@[simp] theorem State.advance_fault (s : State) (n : Nat) : (s.advance n).fault = s.fault := rfl
@[simp] theorem State.advance_out (s : State) (n : Nat) : (s.advance n).out = s.out := rfl
@[simp] theorem State.advance_mem (s : State) (n : Nat) : (s.advance n).mem = s.mem := rfl
@[simp] theorem State.advance_supplied (s : State) (n : Nat) : (s.advance n).supplied = s.supplied := rfl
@[simp] theorem State.advance_returned (s : State) (n : Nat) : (s.advance n).returned = s.returned := rfl

@[simp] theorem State.endPass_pc (s : State) : (s.endPass).pc = Config.entry := rfl
@[simp] theorem State.endPass_r1 (s : State) : (s.endPass).r1 = s.r1 := rfl
@[simp] theorem State.endPass_r2 (s : State) : (s.endPass).r2 = s.r2 := rfl
@[simp] theorem State.endPass_run (s : State) : (s.endPass).run = .idle := rfl
@[simp] theorem State.endPass_fault (s : State) : (s.endPass).fault = s.fault := rfl
@[simp] theorem State.endPass_out (s : State) : (s.endPass).out = s.out := rfl
@[simp] theorem State.endPass_mem (s : State) : (s.endPass).mem = none := rfl
@[simp] theorem State.endPass_supplied (s : State) : (s.endPass).supplied = s.supplied := rfl
@[simp] theorem State.endPass_returned (s : State) : (s.endPass).returned = s.handedBack := rfl

@[simp] theorem State.emit_pc (s : State) (v : Word) : (s.emit v).pc = s.pc := rfl
@[simp] theorem State.emit_r1 (s : State) (v : Word) : (s.emit v).r1 = s.r1 := rfl
@[simp] theorem State.emit_r2 (s : State) (v : Word) : (s.emit v).r2 = s.r2 := rfl
@[simp] theorem State.emit_run (s : State) (v : Word) : (s.emit v).run = s.run := rfl
@[simp] theorem State.emit_fault (s : State) (v : Word) : (s.emit v).fault = s.fault := rfl
@[simp] theorem State.emit_out (s : State) (v : Word) : (s.emit v).out = s.out ++ [v] := rfl
@[simp] theorem State.emit_mem (s : State) (v : Word) : (s.emit v).mem = s.mem := rfl
@[simp] theorem State.emit_supplied (s : State) (v : Word) : (s.emit v).supplied = s.supplied := rfl
@[simp] theorem State.emit_returned (s : State) (v : Word) : (s.emit v).returned = s.returned := rfl

@[simp] theorem State.supply_pc (s : State) (m : Memory) : (s.supply m).pc = s.pc := rfl
@[simp] theorem State.supply_r1 (s : State) (m : Memory) : (s.supply m).r1 = s.r1 := rfl
@[simp] theorem State.supply_r2 (s : State) (m : Memory) : (s.supply m).r2 = s.r2 := rfl
@[simp] theorem State.supply_run (s : State) (m : Memory) : (s.supply m).run = s.run := rfl
@[simp] theorem State.supply_fault (s : State) (m : Memory) : (s.supply m).fault = s.fault := rfl
@[simp] theorem State.supply_out (s : State) (m : Memory) : (s.supply m).out = s.out := rfl
@[simp] theorem State.supply_mem (s : State) (m : Memory) : (s.supply m).mem = s.mem := rfl
@[simp] theorem State.supply_supplied (s : State) (m : Memory) : (s.supply m).supplied = s.supplied ++ [m] := rfl
@[simp] theorem State.supply_returned (s : State) (m : Memory) : (s.supply m).returned = s.returned := rfl

@[simp] theorem State.createProcessor_pc (u w : Word) : (State.createProcessor u w).pc = Config.entry := rfl
@[simp] theorem State.createProcessor_r1 (u w : Word) : (State.createProcessor u w).r1 = u := rfl
@[simp] theorem State.createProcessor_r2 (u w : Word) : (State.createProcessor u w).r2 = w := rfl
@[simp] theorem State.createProcessor_run (u w : Word) : (State.createProcessor u w).run = .idle := rfl
@[simp] theorem State.createProcessor_fault (u w : Word) : (State.createProcessor u w).fault = none := rfl
@[simp] theorem State.createProcessor_out (u w : Word) : (State.createProcessor u w).out = [] := rfl
@[simp] theorem State.createProcessor_mem (u w : Word) : (State.createProcessor u w).mem = none := rfl
@[simp] theorem State.createProcessor_supplied (u w : Word) : (State.createProcessor u w).supplied = [] := rfl
@[simp] theorem State.createProcessor_returned (u w : Word) : (State.createProcessor u w).returned = [] := rfl

/-- What the caller owns after the engine lets an image go. -/
@[simp] theorem State.handedBack_of_mem {s : State} {m : Memory} (h : s.mem = some m) :
    s.handedBack = s.returned ++ [m] := by simp [State.handedBack, h]

/-- With no image attached, nothing is handed back. -/
@[simp] theorem State.handedBack_of_none {s : State} (h : s.mem = none) : s.handedBack = s.returned := by
  simp [State.handedBack, h]

theorem State.pastRegion_iff (s : State) : s.pastRegion = true ↔ 0x0D < s.pc.toNat := by
  simp [State.pastRegion, Config.lastInsnAddr, BitVec.lt_def]

/-- `withImage` runs its argument on the attached image. -/
@[simp] theorem withImage_of_mem {s : State} {m : Memory} (h : s.mem = some m)
    (k : Memory → Host.Outcome State Fault Refusal) : withImage s k = k m := by simp [withImage, h]

/-- If `withImage` answers a next state, an image is attached and the answer is the argument's on it. -/
theorem withImage_next {s t : State} {k : Memory → Host.Outcome State Fault Refusal}
    (h : withImage s k = .next t) : ∃ m, s.mem = some m ∧ k m = .next t := by
  unfold withImage at h
  split at h
  · exact ⟨_, by assumption, h⟩
  · cases h

/-- Everything the end of an instruction can do. -/
theorem finishBody_next {s t : State} {n : Nat} {r : Except RaisedFault State}
    (h : finishBody s n r = .next t) :
    (∃ u, r = .ok u ∧ t = u.advance n) ∨ (∃ f, r = .error f ∧ t = s.raise f) := by
  cases r with
  | ok u => exact .inl ⟨u, rfl, by simpa [finishBody] using h.symm⟩
  | error f => exact .inr ⟨f, rfl, by simpa [finishBody] using h.symm⟩

/-- The end of an instruction always answers a next state. -/
theorem finishBody_isNext (s : State) (n : Nat) (r : Except RaisedFault State) :
    ∃ t, finishBody s n r = .next t := by
  cases r with
  | ok u => exact ⟨_, rfl⟩
  | error f => exact ⟨_, rfl⟩

end Sys2Proof.Machine
end

