-- ==== Sys2Proof/Laws/Memory.lean ====
section
/-! SUPPORT. The laws of the memory image: reading after writing, the canonical form, and what each
bounds-checked access can do. -/

namespace Sys2Proof.Machine

/-! ### One byte -/

/-- Dropping the entries up to `a` leaves every address above `a` as it reads. -/
theorem Memory.read_filter_above (l : Memory) {a c : Nat} (h : a < c) :
    Memory.read (l.filter (fun e => decide (a < e.1))) c = Memory.read l c := by
  induction l with
  | nil => rfl
  | cons e rest ih =>
    obtain ⟨b, w⟩ := e
    by_cases hab : a < b
    · simp [Memory.read, hab, ih]
    · have : b < c := by omega
      simp [Memory.read, hab, ih, this]

/-- Dropping the entries up to `a` makes every address up to `a` unlisted. -/
theorem Memory.read_filter_below (l : Memory) {a c : Nat} (h : c ≤ a) :
    Memory.read (l.filter (fun e => decide (a < e.1))) c = Memory.unlisted := by
  induction l with
  | nil => rfl
  | cons e rest ih =>
    obtain ⟨b, w⟩ := e
    by_cases hab : a < b
    · have h1 : ¬ b < c := by omega
      have h2 : ¬ b = c := by omega
      simp [Memory.read, hab, h1, h2]
    · simp [hab, ih]

/-- The byte at an address after an entry for it is put before the entries above it. -/
theorem Memory.read_entry_same (l : Memory) (a : Nat) (v : Byte) :
    Memory.read (Memory.entry a v ++ l.filter (fun e => decide (a < e.1))) a = v := by
  unfold Memory.entry
  split
  · subst v
    simpa using Memory.read_filter_below l (Nat.le_refl a)
  · simp [Memory.read]

/-- Reading the byte just written gives the value written. -/
@[simp] theorem Memory.read_write_same (m : Memory) (a : Nat) (v : Byte) : (m.write a v).read a = v := by
  induction m with
  | nil => simpa [Memory.write] using Memory.read_entry_same [] a v
  | cons e rest ih =>
    obtain ⟨b, w⟩ := e
    by_cases hba : b < a
    · simp [Memory.write, Memory.read, hba, ih]
    · simpa [Memory.write, hba] using Memory.read_entry_same ((b, w) :: rest) a v

/-- A write leaves every other address as it reads. -/
theorem Memory.read_write_other (m : Memory) {a c : Nat} (v : Byte) (h : c ≠ a) :
    (m.write a v).read c = m.read c := by
  induction m with
  | nil =>
    unfold Memory.write Memory.entry
    split
    · rfl
    · have := Ne.symm h
      simp [Memory.read, this]
  | cons e rest ih =>
    obtain ⟨b, w⟩ := e
    by_cases hba : b < a
    · simp [Memory.write, Memory.read, hba, ih]
    · have hw : Memory.write ((b, w) :: rest) a v
          = Memory.entry a v ++ ((b, w) :: rest).filter (fun e => decide (a < e.1)) := by
        simp [Memory.write, hba]
      rw [hw]
      have hac : a ≠ c := Ne.symm h
      rcases Nat.lt_or_ge a c with hlt | hge
      · unfold Memory.entry
        split
        · simpa using Memory.read_filter_above ((b, w) :: rest) hlt
        · simpa [Memory.read, hlt] using Memory.read_filter_above ((b, w) :: rest) hlt
      · have h1 : ¬ b < c := by omega
        have h2 : ¬ b = c := by omega
        have h3 : ¬ a < c := by omega
        have hr : Memory.read ((b, w) :: rest) c = Memory.unlisted := by simp [Memory.read, h1, h2]
        rw [hr]
        unfold Memory.entry
        split
        · simpa using Memory.read_filter_below ((b, w) :: rest) hge
        · simp [Memory.read, h3, hac]

/-! ### The canonical form -/

theorem Memory.wfFrom_mono {lo lo' : Nat} (h : lo' ≤ lo) {m : Memory} (hm : Memory.wfFrom lo m = true) :
    Memory.wfFrom lo' m = true := by
  cases m with
  | nil => rfl
  | cons e rest =>
    simp [Memory.wfFrom] at hm ⊢
    exact ⟨⟨⟨by omega, hm.1.1.2⟩, hm.1.2⟩, hm.2⟩

/-- A canonical list above `a` has no entry up to `a`. -/
theorem Memory.filter_of_wfFrom {lo a : Nat} (h : a < lo) {m : Memory} (hm : Memory.wfFrom lo m = true) :
    m.filter (fun e => decide (a < e.1)) = m := by
  induction m generalizing lo with
  | nil => rfl
  | cons e rest ih =>
    simp [Memory.wfFrom] at hm
    have hae : a < e.1 := by omega
    simp [hae]
    simpa using ih (lo := e.1 + 1) (by omega) hm.2

theorem Memory.wfFrom_entry_append {lo a : Nat} {v : Byte} {m : Memory} (hlo : lo ≤ a) (ha : a < Config.memSize)
    (hm : Memory.wfFrom (a + 1) m = true) : Memory.wfFrom lo (Memory.entry a v ++ m) = true := by
  unfold Memory.entry
  split
  · exact Memory.wfFrom_mono (by omega) hm
  · simp [Memory.wfFrom, hlo, ha, hm]
    assumption

theorem Memory.wfFrom_write {lo a : Nat} {v : Byte} {m : Memory} (hlo : lo ≤ a) (ha : a < Config.memSize)
    (hm : Memory.wfFrom lo m = true) : Memory.wfFrom lo (m.write a v) = true := by
  induction m generalizing lo with
  | nil => simpa [Memory.write] using Memory.wfFrom_entry_append (m := []) hlo ha rfl
  | cons e rest ih =>
    obtain ⟨b, w⟩ := e
    have hm' := hm
    simp [Memory.wfFrom] at hm
    by_cases hba : b < a
    · have := ih (lo := b + 1) (by omega) hm.2
      simp [Memory.write, Memory.wfFrom, hba, this, hm.1]
    · have hw : Memory.write ((b, w) :: rest) a v
          = Memory.entry a v ++ ((b, w) :: rest).filter (fun e => decide (a < e.1)) := by
        simp [Memory.write, hba]
      rw [hw]
      refine Memory.wfFrom_entry_append hlo ha ?_
      rcases Nat.lt_or_ge a b with hlt | hge
      · have h1 : Memory.wfFrom (a + 1) ((b, w) :: rest) = true := by
          simp [Memory.wfFrom, hm]
          omega
        rw [Memory.filter_of_wfFrom (by omega) h1]
        exact h1
      · have hb : ¬ a < b := by omega
        have h2 := Memory.filter_of_wfFrom (a := a) (lo := b + 1) (by omega) hm.2
        simp [hb]
        rw [h2]
        exact Memory.wfFrom_mono (by omega) hm.2

/-- A write to an address that exists keeps the canonical form. -/
theorem Memory.wf_write {m : Memory} {a : Nat} {v : Byte} (ha : a < Config.memSize) (hm : m.wf = true) :
    (m.write a v).wf = true := Memory.wfFrom_write (Nat.zero_le a) ha hm

theorem Memory.wf_place {m : Memory} {a : Nat} {bs : List Byte} (ha : a + bs.length ≤ Config.memSize)
    (hm : m.wf = true) : (m.place a bs).wf = true := by
  induction bs generalizing m a with
  | nil => exact hm
  | cons v rest ih =>
    simp at ha
    exact ih (by omega) (Memory.wf_write (by omega) hm)

/-- An image built from at most 20 bytes is canonical. -/
theorem Memory.wf_ofBytes {bs : List Byte} (h : bs.length ≤ Config.memSize) : (Memory.ofBytes bs).wf = true :=
  Memory.wf_place (by omega) rfl

theorem Memory.read_of_wfFrom {lo c : Nat} (h : c < lo) {m : Memory} (hm : Memory.wfFrom lo m = true) :
    m.read c = Memory.unlisted := by
  cases m with
  | nil => rfl
  | cons e rest =>
    simp [Memory.wfFrom] at hm
    have h1 : ¬ e.1 < c := by omega
    have h2 : ¬ e.1 = c := by omega
    simp [Memory.read, h1, h2]

/-- Canonical images that read alike everywhere are equal data. -/
theorem Memory.eq_of_read_from {lo : Nat} {m n : Memory} (hm : Memory.wfFrom lo m = true)
    (hn : Memory.wfFrom lo n = true) (h : ∀ a, m.read a = n.read a) : m = n := by
  induction m generalizing lo n with
  | nil =>
    cases n with
    | nil => rfl
    | cons e rest =>
      have := h e.1
      simp [Memory.wfFrom] at hn
      simp [Memory.read] at this
      exact absurd this.symm hn.1.2
  | cons e rest ih =>
    obtain ⟨b, w⟩ := e
    have hm' := hm
    simp [Memory.wfFrom] at hm
    cases n with
    | nil =>
      have := h b
      simp [Memory.read] at this
      exact absurd this hm.1.2
    | cons e' rest' =>
      obtain ⟨b', w'⟩ := e'
      have hn' := hn
      simp [Memory.wfFrom] at hn
      have hbb : b = b' := by
        rcases Nat.lt_trichotomy b b' with hlt | heq | hgt
        · have := h b
          have h1 : ¬ b' < b := by omega
          have h2 : ¬ b' = b := by omega
          simp [Memory.read, h1, h2] at this
          exact absurd this hm.1.2
        · exact heq
        · have := h b'
          have h1 : ¬ b < b' := by omega
          have h2 : ¬ b = b' := by omega
          simp [Memory.read, h1, h2] at this
          exact absurd this.symm hn.1.2
      subst hbb
      have hww : w = w' := by simpa [Memory.read] using h b
      subst hww
      congr 1
      refine ih hm.2 hn.2 fun a => ?_
      rcases Nat.lt_or_ge b a with hlt | hge
      · simpa [Memory.read, hlt] using h a
      · rw [Memory.read_of_wfFrom (by omega) hm.2, Memory.read_of_wfFrom (by omega) hn.2]

theorem Memory.eq_of_read {m n : Memory} (hm : m.wf = true) (hn : n.wf = true) (h : ∀ a, m.read a = n.read a) :
    m = n := Memory.eq_of_read_from hm hn h

/-! ### Bounds-checked access -/

theorem checkAddr_ok {a : Nat} (h : a < 20) : checkAddr a = .ok () := by
  have : ¬ 20 ≤ a := by omega
  simp [checkAddr, Config.memSize, this]

theorem checkAddr_out {a : Nat} (h : 20 ≤ a) :
    checkAddr a = .error ⟨.memoryOutOfBounds, BitVec.ofNat 16 a⟩ := by
  simp [checkAddr, Config.memSize, h]

theorem memReadByte_ok (m : Memory) {a : Nat} (h : a < 20) : memReadByte m a = .ok (m.read a) := by
  simp [memReadByte, checkAddr_ok h, bind, Except.bind, pure, Except.pure]

theorem memReadByte_out (m : Memory) {a : Nat} (h : 20 ≤ a) :
    memReadByte m a = .error ⟨.memoryOutOfBounds, BitVec.ofNat 16 a⟩ := by
  simp [memReadByte, checkAddr_out h, bind, Except.bind]

theorem memWriteByte_ok (m : Memory) {a : Nat} (v : Byte) (h : a < 20) :
    memWriteByte m a v = .ok (m.write a v) := by
  simp [memWriteByte, checkAddr_ok h, bind, Except.bind, pure, Except.pure]

theorem memWriteByte_out (m : Memory) {a : Nat} (v : Byte) (h : 20 ≤ a) :
    memWriteByte m a v = .error ⟨.memoryOutOfBounds, BitVec.ofNat 16 a⟩ := by
  simp [memWriteByte, checkAddr_out h, bind, Except.bind]

/-- A byte write keeps the canonical form. -/
theorem memWriteByte_wf {m m' : Memory} {a : Nat} {v : Byte} (h : memWriteByte m a v = .ok m')
    (hm : m.wf = true) : m'.wf = true := by
  rcases Nat.lt_or_ge a 20 with hlt | hge
  · rw [memWriteByte_ok m v hlt] at h
    cases h
    exact Memory.wf_write hlt hm
  · rw [memWriteByte_out m v hge] at h
    cases h

/-- The three things a word read can do, by its address. -/
theorem memReadWord_ok (m : Memory) {a : Nat} (h : a < 19) :
    memReadWord m a = .ok (decodeWord (m.read a) (m.read (a + 1))) := by
  simp [memReadWord, memReadByte_ok m (show a < 20 by omega), memReadByte_ok m (show a + 1 < 20 by omega),
    bind, Except.bind, pure, Except.pure]

theorem memReadWord_last (m : Memory) : memReadWord m 19 = .error ⟨.memoryOutOfBounds, 0x14#16⟩ := by
  simp [memReadWord, memReadByte_ok m (show 19 < 20 by omega), memReadByte_out m (show 20 ≤ 20 by omega),
    bind, Except.bind]

theorem memReadWord_out (m : Memory) {a : Nat} (h : 20 ≤ a) :
    memReadWord m a = .error ⟨.memoryOutOfBounds, BitVec.ofNat 16 a⟩ := by
  simp [memReadWord, memReadByte_out m h, bind, Except.bind]

/-- The three things a word write can do, by its address. -/
theorem memWriteWord_ok (m : Memory) {a : Nat} (v : Word) (h : a < 19) :
    memWriteWord m a v = .ok ((m.write a (encodeWord v).1).write (a + 1) (encodeWord v).2) := by
  simp [memWriteWord, checkAddr_ok (show a < 20 by omega), checkAddr_ok (show a + 1 < 20 by omega),
    memWriteByte_ok m _ (show a < 20 by omega), memWriteByte_ok _ _ (show a + 1 < 20 by omega), bind, Except.bind]

theorem memWriteWord_last (m : Memory) (v : Word) :
    memWriteWord m 19 v = .error ⟨.memoryOutOfBounds, 0x14#16⟩ := by
  simp [memWriteWord, checkAddr_ok (show 19 < 20 by omega), checkAddr_out (show 20 ≤ 20 by omega),
    bind, Except.bind]

theorem memWriteWord_out (m : Memory) {a : Nat} (v : Word) (h : 20 ≤ a) :
    memWriteWord m a v = .error ⟨.memoryOutOfBounds, BitVec.ofNat 16 a⟩ := by
  simp [memWriteWord, checkAddr_out h, bind, Except.bind]

/-- A word write that answers has an address with both bytes in bounds, and wrote just those two bytes. -/
theorem memWriteWord_eq_ok {m m' : Memory} {a : Nat} {v : Word} (h : memWriteWord m a v = .ok m') :
    a < 19 ∧ m' = (m.write a (encodeWord v).1).write (a + 1) (encodeWord v).2 := by
  rcases Nat.lt_trichotomy a 19 with hlt | heq | hgt
  · rw [memWriteWord_ok m v hlt] at h
    exact ⟨hlt, by simpa using h.symm⟩
  · subst heq
    rw [memWriteWord_last] at h
    cases h
  · rw [memWriteWord_out m v (by omega)] at h
    cases h

/-- A word write leaves every other byte as it reads. -/
theorem memWriteWord_read_other {m m' : Memory} {a c : Nat} {v : Word} (h : memWriteWord m a v = .ok m')
    (h0 : c ≠ a) (h1 : c ≠ a + 1) : m'.read c = m.read c := by
  obtain ⟨-, rfl⟩ := memWriteWord_eq_ok h
  rw [Memory.read_write_other _ _ h1, Memory.read_write_other _ _ h0]

/-- A word write stores the low byte first. -/
theorem memWriteWord_read_stored {m m' : Memory} {a : Nat} {v : Word} (h : memWriteWord m a v = .ok m') :
    m'.read a = (encodeWord v).1 ∧ m'.read (a + 1) = (encodeWord v).2 := by
  obtain ⟨-, rfl⟩ := memWriteWord_eq_ok h
  rw [Memory.read_write_other _ _ (by omega : a ≠ a + 1)]
  simp

/-- A word write keeps the canonical form. -/
theorem memWriteWord_wf {m m' : Memory} {a : Nat} {v : Word} (h : memWriteWord m a v = .ok m')
    (hm : m.wf = true) : m'.wf = true := by
  obtain ⟨ha, rfl⟩ := memWriteWord_eq_ok h
  exact Memory.wf_write (by simp [Config.memSize]; omega) (Memory.wf_write (by simp [Config.memSize]; omega) hm)

end Sys2Proof.Machine
end

