-- ==== Sys2Proof/Laws/Operands.lean ====
section
/-! SUPPORT. What each operand form can do: register operands, the register file, byte widening. -/

namespace Sys2Proof.Machine

theorem validRegOperand_iff (b : Byte) : validRegOperand b = true ↔ b = 0x01#8 ∨ b = 0x02#8 := by
  simp [validRegOperand, Config.r1Id, Config.r2Id]

theorem validRegOperand_eq_false (b : Byte) : validRegOperand b = false ↔ b ≠ 0x01#8 ∧ b ≠ 0x02#8 := by
  simp [validRegOperand, Config.r1Id, Config.r2Id]

theorem zext16_toNat (b : Byte) : (zext16 b).toNat = b.toNat := by
  have := b.isLt
  simp [zext16]
  omega

theorem decodeReg_valid {b : Byte} (h : validRegOperand b = true) : decodeReg b = .ok b := by
  simp [decodeReg, h]

theorem decodeReg_invalid {b : Byte} (h : validRegOperand b = false) :
    decodeReg b = .error ⟨.invalidRegister, zext16 b⟩ := by simp [decodeReg, h]

@[simp] theorem regRead_r1 (s : State) : regRead s 0x01#8 = .ok s.r1 := rfl
@[simp] theorem regRead_r2 (s : State) : regRead s 0x02#8 = .ok s.r2 := rfl
@[simp] theorem regWrite_r1 (s : State) (v : Word) : regWrite s 0x01#8 v = .ok { s with r1 := v } := rfl
@[simp] theorem regWrite_r2 (s : State) (v : Word) : regWrite s 0x02#8 v = .ok { s with r2 := v } := rfl

/-- A valid register operand can be read. -/
theorem regRead_valid (s : State) {b : Byte} (h : validRegOperand b = true) : ∃ v, regRead s b = .ok v := by
  rcases (validRegOperand_iff b).1 h with rfl | rfl
  · exact ⟨s.r1, rfl⟩
  · exact ⟨s.r2, rfl⟩

/-- A write through a valid register operand changes R1 or R2 and nothing else. -/
theorem regWrite_valid (s : State) (v : Word) {b : Byte} (h : validRegOperand b = true) :
    ∃ v1 v2, regWrite s b v = .ok { s with r1 := v1, r2 := v2 } := by
  rcases (validRegOperand_iff b).1 h with rfl | rfl
  · exact ⟨v, s.r2, rfl⟩
  · exact ⟨s.r1, v, rfl⟩

end Sys2Proof.Machine
end

