-- ==== Sys2Proof/Laws/Exec.lean ====
section
/-! SUPPORT. Everything an instruction's meaning can do, said once per body and once for `exec`. -/

namespace Sys2Proof.Machine

/-- The faults an instruction's own checks can raise (R123, R124). -/
def RaisedFault.ByOperand (f : RaisedFault) : Prop :=
  (f.kind = .memoryOutOfBounds ∧ 0x14 ≤ f.info.toNat ∧ f.info.toNat ≤ 0xFF) ∨
  (f.kind = .invalidRegister ∧ ∃ b : Byte, f.info = zext16 b ∧ validRegOperand b = false)

theorem byOperand_invalidRegister {b : Byte} (h : validRegOperand b = false) :
    RaisedFault.ByOperand ⟨.invalidRegister, zext16 b⟩ := .inr ⟨rfl, b, rfl, h⟩

theorem byOperand_out {a : Nat} (h : 20 ≤ a) (h' : a < 256) :
    RaisedFault.ByOperand ⟨.memoryOutOfBounds, BitVec.ofNat 16 a⟩ := by
  refine .inl ⟨rfl, ?_, ?_⟩ <;> simp <;> omega

/-- A word access at an address operand is in bounds, or raises MemoryOutOfBounds by R50. -/
theorem memReadWord_cases (m : Memory) (a : Byte) :
    (∃ v, memReadWord m (effectiveAddr a) = .ok v) ∨
    (∃ f, memReadWord m (effectiveAddr a) = .error f ∧ f.ByOperand) := by
  have ha := a.isLt
  rcases Nat.lt_trichotomy a.toNat 19 with hlt | heq | hgt
  · exact .inl ⟨_, memReadWord_ok m hlt⟩
  · rw [effectiveAddr, heq]
    exact .inr ⟨_, memReadWord_last m, byOperand_out (a := 20) (by omega) (by omega)⟩
  · exact .inr ⟨_, memReadWord_out m (a := a.toNat) (by omega), byOperand_out (by omega) (by omega)⟩

theorem memWriteWord_cases (m : Memory) (a : Byte) (v : Word) :
    (∃ m', memWriteWord m (effectiveAddr a) v = .ok m') ∨
    (∃ f, memWriteWord m (effectiveAddr a) v = .error f ∧ f.ByOperand) := by
  have ha := a.isLt
  rcases Nat.lt_trichotomy a.toNat 19 with hlt | heq | hgt
  · exact .inl ⟨_, memWriteWord_ok m v hlt⟩
  · rw [effectiveAddr, heq]
    exact .inr ⟨_, memWriteWord_last m v, byOperand_out (a := 20) (by omega) (by omega)⟩
  · exact .inr ⟨_, memWriteWord_out m v (a := a.toNat) (by omega), byOperand_out (by omega) (by omega)⟩

/-- The body of LOAD with its checks done: the register check, then the word read, then the write. -/
theorem loadBody_valid {r : Byte} (a : Byte) (m : Memory) (s : State) (h : validRegOperand r = true) :
    loadBody r a m s = (memReadWord m (effectiveAddr a)).bind fun v => regWrite s r v := by
  simp [loadBody, decodeReg_valid h, bind, Except.bind]

theorem loadBody_invalid {r : Byte} (a : Byte) (m : Memory) (s : State) (h : validRegOperand r = false) :
    loadBody r a m s = .error ⟨.invalidRegister, zext16 r⟩ := by
  simp [loadBody, decodeReg_invalid h, bind, Except.bind]

theorem storeBody_valid {r : Byte} (a : Byte) (m : Memory) (s : State) (h : validRegOperand r = true) :
    storeBody r a m s = (regRead s r).bind fun v => (memWriteWord m (effectiveAddr a) v).bind fun m' =>
      .ok { s with mem := some m' } := by
  simp [storeBody, decodeReg_valid h, bind, Except.bind, pure, Except.pure]

theorem storeBody_invalid {r : Byte} (a : Byte) (m : Memory) (s : State) (h : validRegOperand r = false) :
    storeBody r a m s = .error ⟨.invalidRegister, zext16 r⟩ := by
  simp [storeBody, decodeReg_invalid h, bind, Except.bind]

theorem arithBody_valid (f : Word → Word → Word) {ra rb : Byte} (s : State) (ha : validRegOperand ra = true)
    (hb : validRegOperand rb = true) :
    arithBody f ra rb s = (regRead s ra).bind fun u => (regRead s rb).bind fun w => regWrite s ra (f u w) := by
  simp [arithBody, decodeReg_valid ha, decodeReg_valid hb, bind, Except.bind]

theorem arithBody_first_invalid (f : Word → Word → Word) {ra : Byte} (rb : Byte) (s : State)
    (ha : validRegOperand ra = false) : arithBody f ra rb s = .error ⟨.invalidRegister, zext16 ra⟩ := by
  simp [arithBody, decodeReg_invalid ha, bind, Except.bind]

theorem arithBody_second_invalid (f : Word → Word → Word) {ra rb : Byte} (s : State)
    (ha : validRegOperand ra = true) (hb : validRegOperand rb = false) :
    arithBody f ra rb s = .error ⟨.invalidRegister, zext16 rb⟩ := by
  simp [arithBody, decodeReg_valid ha, decodeReg_invalid hb, bind, Except.bind]

@[simp] theorem arithBody_r1_r1 (f : Word → Word → Word) (s : State) :
    arithBody f 0x01#8 0x01#8 s = .ok { s with r1 := f s.r1 s.r1 } := rfl
@[simp] theorem arithBody_r1_r2 (f : Word → Word → Word) (s : State) :
    arithBody f 0x01#8 0x02#8 s = .ok { s with r1 := f s.r1 s.r2 } := rfl
@[simp] theorem arithBody_r2_r1 (f : Word → Word → Word) (s : State) :
    arithBody f 0x02#8 0x01#8 s = .ok { s with r2 := f s.r2 s.r1 } := rfl
@[simp] theorem arithBody_r2_r2 (f : Word → Word → Word) (s : State) :
    arithBody f 0x02#8 0x02#8 s = .ok { s with r2 := f s.r2 s.r2 } := rfl

theorem printBody_eq (m : Memory) (s : State) :
    printBody m s = .ok (s.emit (decodeWord (m.read 0x0E) (m.read 0x0F))) := by
  simp [printBody, Config.outputAddr, memReadWord_ok m (show 0x0E < 19 by omega), bind, Except.bind, pure,
    Except.pure]

/-- Everything LOAD's body can do. -/
theorem loadBody_cases (r a : Byte) (m : Memory) (s : State) :
    (∃ v1 v2, loadBody r a m s = .ok { s with r1 := v1, r2 := v2 }) ∨
    (∃ f, loadBody r a m s = .error f ∧ f.ByOperand) := by
  cases hr : validRegOperand r with
  | false => exact .inr ⟨_, loadBody_invalid a m s hr, byOperand_invalidRegister hr⟩
  | true =>
    rw [loadBody_valid a m s hr]
    rcases memReadWord_cases m a with ⟨v, hv⟩ | ⟨f, hf, hby⟩
    · obtain ⟨v1, v2, hw⟩ := regWrite_valid s v hr
      exact .inl ⟨v1, v2, by simp [hv, hw, Except.bind]⟩
    · exact .inr ⟨f, by simp [hf, Except.bind], hby⟩

/-- Everything STORE's body can do. -/
theorem storeBody_cases (r a : Byte) (m : Memory) (s : State) :
    (∃ v m', regRead s r = .ok v ∧ memWriteWord m (effectiveAddr a) v = .ok m' ∧
      storeBody r a m s = .ok { s with mem := some m' }) ∨
    (∃ f, storeBody r a m s = .error f ∧ f.ByOperand) := by
  cases hr : validRegOperand r with
  | false => exact .inr ⟨_, storeBody_invalid a m s hr, byOperand_invalidRegister hr⟩
  | true =>
    rw [storeBody_valid a m s hr]
    obtain ⟨v, hv⟩ := regRead_valid s hr
    rcases memWriteWord_cases m a v with ⟨m', hm⟩ | ⟨f, hf, hby⟩
    · exact .inl ⟨v, m', hv, hm, by simp [hv, hm, Except.bind]⟩
    · exact .inr ⟨f, by simp [hv, hf, Except.bind], hby⟩

/-- Everything the body of ADD and SUB can do. -/
theorem arithBody_cases (f : Word → Word → Word) (ra rb : Byte) (s : State) :
    (∃ v1 v2, arithBody f ra rb s = .ok { s with r1 := v1, r2 := v2 }) ∨
    (∃ g, arithBody f ra rb s = .error g ∧ g.ByOperand) := by
  cases ha : validRegOperand ra with
  | false => exact .inr ⟨_, arithBody_first_invalid f rb s ha, byOperand_invalidRegister ha⟩
  | true =>
    cases hb : validRegOperand rb with
    | false => exact .inr ⟨_, arithBody_second_invalid f s ha hb, byOperand_invalidRegister hb⟩
    | true =>
      obtain ⟨u, hu⟩ := regRead_valid s ha
      obtain ⟨w, hw⟩ := regRead_valid s hb
      obtain ⟨v1, v2, hx⟩ := regWrite_valid s (f u w) ha
      exact .inl ⟨v1, v2, by simp [arithBody_valid f s ha hb, hu, hw, hx, Except.bind]⟩

/-- The instruction writes a register. -/
def Instr.WritesRegister : Instr → Prop
  | .load _ _ => True
  | .store _ _ => False
  | .add _ _ => True
  | .sub _ _ => True
  | .print => False
  | .halt => False

/-- The end of an instruction whose body writes a register or raises. -/
theorem finishBody_registerBody {s t : State} {r : Except RaisedFault State}
    (hr : (∃ v1 v2, r = .ok { s with r1 := v1, r2 := v2 }) ∨ (∃ f, r = .error f ∧ f.ByOperand))
    (h : finishBody s operandAdvance r = .next t) :
    (∃ f, f.ByOperand ∧ t = s.raise f) ∨ (∃ v1 v2, t = { s with r1 := v1, r2 := v2, pc := s.pc + 3#16 }) := by
  rcases hr with ⟨v1, v2, rfl⟩ | ⟨f, rfl, hf⟩
  · cases h
    exact .inr ⟨v1, v2, rfl⟩
  · cases h
    exact .inl ⟨f, hf, rfl⟩

/-- Everything `exec` can do when it answers a next state: take a fault its operands raise; write a register
and advance by 3 (LOAD, ADD, SUB); write a word and advance by 3 (STORE); emit the output word and advance
by 1 (PRINT); end the pass (HALT). -/
theorem exec_next_cases {i : Instr} {s t : State} (h : exec i s = .next t) :
    (∃ f, f.ByOperand ∧ t = s.raise f) ∨
    (Instr.WritesRegister i ∧ ∃ v1 v2, t = { s with r1 := v1, r2 := v2, pc := s.pc + 3#16 }) ∨
    (∃ r a v m m', i = .store r a ∧ s.mem = some m ∧ regRead s r = .ok v ∧
      memWriteWord m (effectiveAddr a) v = .ok m' ∧ t = { s with mem := some m', pc := s.pc + 3#16 }) ∨
    (i = .print ∧ ∃ m, s.mem = some m ∧
      t = { s with out := s.out ++ [decodeWord (m.read 0x0E) (m.read 0x0F)], pc := s.pc + 1#16 }) ∨
    (i = .halt ∧ t = s.endPass) := by
  cases i with
  | load r a =>
    obtain ⟨m, -, h⟩ := withImage_next h
    rcases finishBody_registerBody (loadBody_cases r a m s) h with hf | hv
    · exact .inl hf
    · exact .inr (.inl ⟨trivial, hv⟩)
  | store r a =>
    obtain ⟨m, hm, h⟩ := withImage_next h
    rcases storeBody_cases r a m s with ⟨v, m', hv, hw, hb⟩ | ⟨f, hb, hby⟩
    · rcases finishBody_next h with ⟨u, hu, rfl⟩ | ⟨g, hg, rfl⟩
      · rw [hb] at hu
        cases hu
        exact .inr (.inr (.inl ⟨r, a, v, m, m', rfl, hm, hv, hw, rfl⟩))
      · rw [hb] at hg
        cases hg
    · rcases finishBody_next h with ⟨u, hu, rfl⟩ | ⟨g, hg, rfl⟩
      · rw [hb] at hu
        cases hu
      · rw [hb] at hg
        cases hg
        exact .inl ⟨f, hby, rfl⟩
  | add ra rb =>
    rcases finishBody_registerBody (arithBody_cases addResult ra rb s) h with hf | hv
    · exact .inl hf
    · exact .inr (.inl ⟨trivial, hv⟩)
  | sub ra rb =>
    rcases finishBody_registerBody (arithBody_cases subResult ra rb s) h with hf | hv
    · exact .inl hf
    · exact .inr (.inl ⟨trivial, hv⟩)
  | print =>
    obtain ⟨m, hm, h⟩ := withImage_next h
    rcases finishBody_next h with ⟨u, hu, rfl⟩ | ⟨g, hg, rfl⟩
    · rw [printBody_eq] at hu
      cases hu
      exact .inr (.inr (.inr (.inl ⟨rfl, m, hm, rfl⟩)))
    · rw [printBody_eq] at hg
      cases hg
  | halt =>
    simp [exec, execHalt] at h
    exact .inr (.inr (.inr (.inr ⟨rfl, h.symm⟩)))

/-- With an image attached, every instruction answers a next state. -/
theorem exec_isNext (i : Instr) {s : State} {m : Memory} (h : s.mem = some m) : ∃ t, exec i s = .next t := by
  cases i with
  | load r a => simpa [exec, execLoad, h] using finishBody_isNext s _ _
  | store r a => simpa [exec, execStore, h] using finishBody_isNext s _ _
  | add ra rb => exact finishBody_isNext s _ _
  | sub ra rb => exact finishBody_isNext s _ _
  | print => simpa [exec, execPrint, h] using finishBody_isNext s _ _
  | halt => exact ⟨_, rfl⟩

end Sys2Proof.Machine
end

