-- ==== Sys2Proof/Laws/Step.lean ====
section
/-! SUPPORT. Everything the fetch, the engine step and the machine's step can do. -/

namespace Sys2Proof.Machine

/-- The opcode table looked up: which byte gives which operation. -/
theorem Opcode.ofByte_toByte (o : Opcode) : Opcode.ofByte o.toByte = some o := by cases o <;> decide

theorem Opcode.toByte_of_ofByte {b : Byte} {o : Opcode} (h : Opcode.ofByte b = some o) : o.toByte = b := by
  unfold Opcode.ofByte at h
  repeat (split at h; · cases h; exact Eq.symm ‹_›)
  cases h

/-- The operand bytes the engine fetches stand in the image while pc is in the instruction region. -/
theorem fetchBytes_two (m : Memory) {a : Nat} (h : a < 19) : fetchBytes m a 2 = [m.read a, m.read (a + 1)] := by
  simp [fetchBytes, fetch, memReadByte_ok m (show a < 20 by omega), memReadByte_ok m (show a + 1 < 20 by omega)]

/-- The bytes fetched for the instruction at `p`, by the operation its opcode byte selects. -/
theorem instrBytes_inRegion (m : Memory) {p : Nat} (h : p ≤ 0x0D) :
    instrBytes m p = m.read p ::
      (if operandCountOf (m.read p) = 2 then [m.read (p + 1), m.read (p + 2)] else []) := by
  have h2 := fetchBytes_two m (show p + 1 < 19 by omega)
  have hc : operandCountOf (m.read p) = 2 ∨ operandCountOf (m.read p) = 0 := by
    unfold operandCountOf
    split
    · rename_i o _
      cases o <;> simp [Opcode.operandCount]
    · exact .inr rfl
  rcases hc with hc | hc <;>
    simp [instrBytes, fetch, memReadByte_ok m (show p < 20 by omega), hc, h2, fetchBytes]

/-- An illegal opcode raises InvalidInstruction with that byte. -/
theorem fetchInstr_illegal (m : Memory) {p : Nat} (h : p ≤ 0x0D) (hop : Opcode.ofByte (m.read p) = none) :
    fetchInstr m p = .error ⟨.invalidInstruction, zext16 (m.read p)⟩ := by
  simp [fetchInstr, instrBytes_inRegion m h, operandCountOf, hop, decode, DecodeError.raised]

/-- A legal opcode gives its instruction, with the bytes after it as operands. -/
theorem fetchInstr_legal (m : Memory) {p : Nat} (h : p ≤ 0x0D) {o : Opcode}
    (hop : Opcode.ofByte (m.read p) = some o) :
    fetchInstr m p = .ok (match o with
      | .load => .load (m.read (p + 1)) (m.read (p + 2))
      | .store => .store (m.read (p + 1)) (m.read (p + 2))
      | .add => .add (m.read (p + 1)) (m.read (p + 2))
      | .sub => .sub (m.read (p + 1)) (m.read (p + 2))
      | .print => .print
      | .halt => .halt) := by
  cases o <;>
    simp [fetchInstr, instrBytes_inRegion m h, operandCountOf, hop, Opcode.operandCount, decode, decodeTwoOperands]

/-- Everything the fetch can do while pc is in the region. -/
theorem fetchInstr_cases (m : Memory) {p : Nat} (h : p ≤ 0x0D) :
    (∃ i, fetchInstr m p = .ok i) ∨
    (Opcode.ofByte (m.read p) = none ∧ fetchInstr m p = .error ⟨.invalidInstruction, zext16 (m.read p)⟩) := by
  cases hop : Opcode.ofByte (m.read p) with
  | none => exact .inr ⟨rfl, fetchInstr_illegal m h hop⟩
  | some o => exact .inl ⟨_, fetchInstr_legal m h hop⟩

/-- Everything an engine step can do when it answers a next state. -/
theorem engineStep_next_cases {s t : State} (h : engineStep s = .next t) :
    (0x0D < s.pc.toNat ∧ t = s.endPass) ∨
    (s.pc.toNat ≤ 0x0D ∧ ∃ m, s.mem = some m ∧
      ((∃ i, fetchInstr m s.pc.toNat = .ok i ∧ exec i s = .next t) ∨
       (Opcode.ofByte (m.read s.pc.toNat) = none ∧
          t = s.raise ⟨.invalidInstruction, zext16 (m.read s.pc.toNat)⟩))) := by
  unfold engineStep at h
  split at h
  · rename_i hp
    exact .inl ⟨(State.pastRegion_iff s).1 hp, by simpa using h.symm⟩
  · rename_i hp
    have hp' : s.pc.toNat ≤ 0x0D := by
      have := mt (State.pastRegion_iff s).2 hp
      omega
    obtain ⟨m, hm, h⟩ := withImage_next h
    refine .inr ⟨hp', m, hm, ?_⟩
    rcases fetchInstr_cases m hp' with ⟨i, hi⟩ | ⟨hop, he⟩
    · rw [hi] at h
      exact .inl ⟨i, hi, h⟩
    · rw [he] at h
      exact .inr ⟨hop, by simpa using h.symm⟩

/-- Everything the machine's step can do when it answers a next state. -/
theorem step_next_cases {s t : State} (h : step s = .next t) :
    (s.run = .running ∧ engineStep s = .next t) ∨
    (s.run = .idle ∧ ∃ image rest, s.supplied = image :: rest ∧
      t = { s with supplied := rest, mem := some image, run := .running }) := by
  unfold step at h
  split at h
  · exact .inl ⟨by assumption, h⟩
  · rename_i hr
    unfold State.hostTurn at h
    split at h
    · rename_i image rest hs
      refine .inr ⟨hr, image, rest, hs, ?_⟩
      simpa [State.attach, hr] using h.symm
    · cases h
  · cases h

/-- Placing an instruction's bytes for the next fetch keeps the image canonical: pc is in the region, so they
all lie below 0x10. -/
theorem State.loadForFetch_wf {s : State} {bytes : List Byte} (hb : bytes.length ≤ 3)
    (hm : ∀ m ∈ s.mem, m.wf = true) : ∀ m ∈ (s.loadForFetch bytes).mem, m.wf = true := by
  intro m h
  have h0 : (s.mem.getD []).wf = true := by
    cases hs : s.mem with
    | none => rfl
    | some m0 => exact hm m0 (by simp [hs])
  have hp : (if s.pastRegion then Config.entry else s.pc).toNat ≤ 0x0D := by
    split
    · decide
    · rename_i hp
      have := mt (State.pastRegion_iff s).2 hp
      omega
  simp [State.loadForFetch] at h
  subst h
  exact Memory.wf_place (by simp [Config.memSize]; omega) h0

end Sys2Proof.Machine
end

