-- ==== Sys2Proof/Laws/Pass.lean ====
section
/-! SUPPORT. The small lemmas of the pass loop, the whole `process` call and the chained run. -/

namespace Sys2Proof.Machine

/-! ### The pass loop -/

/-- A pass that is over takes no further step. -/
theorem runPass_of_over {s : State} (k : Nat) (h : s.run ≠ .running) : runPass k s = .next s := by
  cases k with
  | zero => rfl
  | succ k => cases hr : s.run <;> simp_all [runPass]

/-- One step of the pass loop. -/
theorem runPass_succ {s t : State} (k : Nat) (hr : s.run = .running) (ht : engineStep s = .next t) :
    runPass (k + 1) s = runPass k t := by simp [runPass, hr, ht]

/-- A running pass always has an engine step. -/
theorem engineStep_isNext {s : State} {m : Memory} (hm : s.mem = some m) : ∃ t, engineStep s = .next t := by
  unfold engineStep
  split
  · exact ⟨_, rfl⟩
  · rw [withImage_of_mem hm]
    cases fetchInstr m s.pc.toNat with
    | ok i => exact exec_isNext i hm
    | error f => exact ⟨_, rfl⟩

/-- Everything an engine step can do to the fields that bound a pass: the pass goes on, with pc advanced and an
image attached, or it is over, by `end_pass` or by a fault. -/
theorem engineStep_goesOn_or_ends {s t : State} (h : engineStep s = .next t) :
    (∃ m i, s.mem = some m ∧ s.pc.toNat ≤ 0x0D ∧ fetchInstr m s.pc.toNat = .ok i ∧ exec i s = .next t ∧
      t.run = s.run ∧ t.mem.isSome = true ∧ s.pc.toNat < t.pc.toNat ∧ t.returned = s.returned ∧
      t.supplied = s.supplied ∧ t.fault = s.fault ∧ s.out <+: t.out) ∨
    t = s.endPass ∨ (s.pc.toNat ≤ 0x0D ∧ ∃ f, t = s.raise f) := by
  rcases engineStep_next_cases h with ⟨-, rfl⟩ | ⟨hp, m, hm, ⟨i, hi, he⟩ | ⟨-, rfl⟩⟩
  · exact .inr (.inl rfl)
  · have h3 : s.pc.toNat < (s.pc + 3#16).toNat := by
      rw [BitVec.toNat_add]
      simp
      omega
    have h1 : s.pc.toNat < (s.pc + 1#16).toNat := by
      rw [BitVec.toNat_add]
      simp
      omega
    rcases exec_next_cases he with ⟨f, -, rfl⟩ | ⟨-, v1, v2, rfl⟩ | ⟨r, a, v, m1, m2, rfl, -, -, -, rfl⟩ |
      ⟨rfl, m1, -, rfl⟩ | ⟨-, rfl⟩
    · exact .inr (.inr ⟨hp, f, rfl⟩)
    · exact .inl ⟨m, i, hm, hp, hi, he, rfl, by simp [hm], h3, rfl, rfl, rfl, List.prefix_rfl⟩
    · exact .inl ⟨m, _, hm, hp, hi, he, rfl, rfl, h3, rfl, rfl, rfl, List.prefix_rfl⟩
    · exact .inl ⟨m, _, hm, hp, hi, he, rfl, by simp [hm], h1, rfl, rfl, rfl, List.prefix_append _ _⟩
    · exact .inr (.inl rfl)
  · exact .inr (.inr ⟨hp, _, rfl⟩)

/-- One step of a run of the machine. -/
theorem coreRun_succ {s t : State} (k : Nat) (h : step s = .next t) :
    Sys2Proof.core.run (k + 1) s = Sys2Proof.core.run k t := by
  have run_succ : ∀ (M : Host.Core) (a b : M.State), M.step a = .next b → M.run (k + 1) a = M.run k b := by
    intro M a b hab
    simp [Host.Core.run, hab]
  exact run_succ Sys2Proof.core s t h

/-! ### The process call and the chained run -/

theorem processPass_of_idle {s : State} (image : Memory) (h : s.run = .idle) :
    processPass s image = runPass passSteps { s with mem := some image, run := .running } := by
  simp [processPass, State.attach, h]

theorem processPass_of_running {s : State} (image : Memory) (h : s.run = .running) :
    processPass s image = .refused .passInProgress := by simp [processPass, State.attach, h]

theorem processPass_of_faulted {s : State} (image : Memory) (h : s.run = .faulted) :
    processPass s image = .refused .processorFaulted := by simp [processPass, State.attach, h]

theorem State.endedNormally_iff (s : State) : s.endedNormally = true ↔ s.run = .idle ∧ s.fault = none := by
  simp [State.endedNormally]

@[simp] theorem runChain_nil (s : State) : runChain [] s = ([], .next s) := rfl

theorem runChain_cons_next {s t : State} {image : Memory} (rest : List Memory)
    (h : processPass s image = .next t) :
    runChain (image :: rest) s =
      ((observePass s image).toList ++ (runChain rest t).1, (runChain rest t).2) := by simp [runChain, h]

theorem runChain_cons_refused {s : State} {image : Memory} (rest : List Memory) {r : Refusal}
    (h : processPass s image = .refused r) : runChain (image :: rest) s = ([], .refused r) := by
  simp [runChain, h]

/-- A Faulted processor's chain observes nothing. -/
theorem runChain_of_faulted {s : State} (images : List Memory) (h : s.run = .faulted) :
    runChain images s = ([], if images = [] then .next s else .refused .processorFaulted) := by
  cases images with
  | nil => rfl
  | cons image rest => simp [runChain_cons_refused rest (processPass_of_faulted image h)]

end Sys2Proof.Machine
end

