-- ==== Sys2Proof/Laws/PerInstr.lean ====
section
/-! SUPPORT. Facts about every instruction as syntax, one lemma per constructor: its encoding starts with its
row's opcode byte and has its row's length_bytes (spec/opcode_table.json; spec/30_encoding.md R69, R75). -/

namespace Sys2Proof.Laws

/-- The operation of an instruction. -/
def opcodeOf : Instr → Opcode
  | .load _ _ => .load
  | .store _ _ => .store
  | .add _ _ => .add
  | .sub _ _ => .sub
  | .print => .print
  | .halt => .halt

/-- The encoding starts with the operation's opcode byte, and as many operand bytes follow as that opcode
byte makes the engine fetch. -/
def EncodingShape.Statement (i : Instr) : Prop :=
  (encode i).head? = some (opcodeOf i).toByte ∧
  (encode i).length = 1 + operandCountOf (opcodeOf i).toByte

theorem EncodingShape.load (r a : Byte) : EncodingShape.Statement (.load r a) := ⟨rfl, rfl⟩
theorem EncodingShape.store (r a : Byte) : EncodingShape.Statement (.store r a) := ⟨rfl, rfl⟩
theorem EncodingShape.add (ra rb : Byte) : EncodingShape.Statement (.add ra rb) := ⟨rfl, rfl⟩
theorem EncodingShape.sub (ra rb : Byte) : EncodingShape.Statement (.sub ra rb) := ⟨rfl, rfl⟩
theorem EncodingShape.print : EncodingShape.Statement .print := ⟨rfl, rfl⟩
theorem EncodingShape.halt : EncodingShape.Statement .halt := ⟨rfl, rfl⟩

end Sys2Proof.Laws
end

