-- ==== Sys2Proof/Tests/Slice0.lean ====
section
/-! SUPPORT. The model's own tests. Expected results come from spec/95_test_vectors.md (each test names its
vector) or from the encodings of spec/30_encoding.md; the witnesses show that the hypotheses of each
statement can be met, at the ends of each clause's range. -/

namespace Sys2Proof.Tests

open Sys2Proof Sys2Proof.Machine

/-! ### Well-formedness: an ill-formed term for each check -/

theorem test_wf_load_accepts : (Instr.load 0x02#8 0xFF#8).wellFormed = true := by decide
theorem test_wf_load_refuses_pc : (Instr.load 0x00#8 0x10#8).wellFormed = false := by decide
theorem test_wf_store_refuses_unknown : (Instr.store 0x03#8 0x10#8).wellFormed = false := by decide
theorem test_wf_add_refuses_first : (Instr.add 0x00#8 0x01#8).wellFormed = false := by decide
theorem test_wf_add_refuses_second : (Instr.add 0x01#8 0x09#8).wellFormed = false := by decide
theorem test_wf_sub_refuses_first : (Instr.sub 0xFF#8 0x01#8).wellFormed = false := by decide
theorem test_wf_sub_refuses_second : (Instr.sub 0x02#8 0x00#8).wellFormed = false := by decide

/-! ### Decoding: words written out bit by bit from R66 to R69 -/

theorem test_decode_load : decode [0b00000001#8, 0b00000010#8, 0b00010010#8] = .ok (.load 0x02#8 0x12#8, []) := by
  decide
theorem test_decode_store : decode [0b00000010#8, 0b00000001#8, 0b00001110#8] = .ok (.store 0x01#8 0x0E#8, []) := by
  decide
theorem test_decode_add : decode [0b00000011#8, 0b00000001#8, 0b00000010#8] = .ok (.add 0x01#8 0x02#8, []) := by
  decide
theorem test_decode_sub : decode [0b00000100#8, 0b00000010#8, 0b00000001#8] = .ok (.sub 0x02#8 0x01#8, []) := by
  decide
theorem test_decode_print : decode [0b00000101#8, 0b11111111#8] = .ok (.print, [0xFF#8]) := by decide
theorem test_decode_halt : decode [0b11111111#8] = .ok (.halt, []) := by decide
/-- E-2 -/
theorem test_decode_illegal : decode [0x06#8, 0x01#8, 0x01#8] = .error (.invalidInstruction 0x06#8) := by decide
theorem test_decode_truncated : decode [0x01#8, 0x01#8] = .error (.truncated 2) := by decide
/-- The table's numbering (R65): the opcode is the most significant byte. -/
theorem test_table_word_load : decodeTableWord 24 0x010212 = some (.load 0x02#8 0x12#8) := by decide
theorem test_table_word_print : decodeTableWord 8 0x05 = some .print := by decide

/-! ### One step -/

/-- A running pass at 0x00 with R1 = 7, R2 = 9, `code` from 0x00 upwards and `data` from `at_` upwards. -/
def runningOn (code : List Byte) (at_ : Nat) (data : List Byte) : State :=
  { State.createProcessor 0x0007#16 0x0009#16 with
    run := .running
    mem := some ((Memory.ofBytes code).place at_ data) }

/-- The outcome is a next state of which `p` holds. -/
def nextWith (p : State → Bool) : Host.Outcome State Fault Refusal → Bool
  | .next t => p t
  | .fault _ => false
  | .refused _ => false

/-- The byte at `a` of the attached image. -/
def byteAt (t : State) (a : Nat) : Byte := (t.mem.getD []).read a

/-- D-2 -/
theorem test_load_little_endian :
    nextWith (fun t => t.r2 == 0x1234#16 && t.r1 == 0x0007#16 && t.pc == 3#16)
      (step (runningOn [0x01#8, 0x02#8, 0x12#8] 0x12 [0x34#8, 0x12#8])) = true := by decide
/-- D-8: the register check precedes the address check. -/
theorem test_load_register_checked_first :
    nextWith (fun t => t.fault == some ⟨.invalidRegister, 0#16, 0x05#16⟩ && t.run == .faulted && t.mem == none)
      (step (runningOn [0x01#8, 0x05#8, 0xFF#8] 0 [])) = true := by decide
/-- D-13: a STORE over its own operand bytes completes as decoded. -/
theorem test_store_over_itself :
    nextWith (fun t => byteAt t 1 == 0x07#8 && byteAt t 2 == 0x00#8 && byteAt t 0 == 0x02#8 && t.pc == 3#16)
      (step (runningOn [0x02#8, 0x01#8, 0x01#8] 0 [])) = true := by decide
/-- D-11 -/
theorem test_store_second_byte_out :
    nextWith (fun t => t.fault == some ⟨.memoryOutOfBounds, 0#16, 0x14#16⟩ && (t.returned.map (·.read 0x13)) == [0xAA#8])
      (step (runningOn [0x02#8, 0x01#8, 0x13#8] 0x13 [0xAA#8])) = true := by decide
/-- A-2, the carry out of 16 bits is dropped. -/
theorem test_add_wraps :
    nextWith (fun t => t.r1 == 0x0001#16 && t.r2 == 0x0002#16)
      (exec (.add 0x01#8 0x02#8) (State.createProcessor 0xFFFF#16 0x0002#16)) = true := by decide
/-- A-14: ra is checked before rb. -/
theorem test_add_first_operand_checked_first :
    nextWith (fun t => t.fault == some ⟨.invalidRegister, 0#16, 0x00#16⟩)
      (step (runningOn [0x03#8, 0x00#8, 0x07#8] 0 [])) = true := by decide
/-- A-10 -/
theorem test_sub_wraps :
    nextWith (fun t => t.r1 == 0xFFFE#16 && t.r2 == 0x0005#16)
      (exec (.sub 0x01#8 0x02#8) (State.createProcessor 0x0003#16 0x0005#16)) = true := by decide
/-- A-13 -/
theorem test_sub_same_register_clears :
    nextWith (fun t => t.r1 == 0x0007#16 && t.r2 == 0x0000#16)
      (step (runningOn [0x04#8, 0x02#8, 0x02#8] 0 [])) = true := by decide
/-- O-1, at pc = 0. -/
theorem test_print_emits_and_advances_by_one :
    nextWith (fun t => t.out == [0x002A#16] && t.pc == 1#16)
      (step (runningOn [0x05#8] 0x0E [0x2A#8, 0x00#8])) = true := by decide
/-- O-2, its second PRINT: pc leaves the region. -/
theorem test_print_at_last_address :
    nextWith (fun t => t.out == [0xFFFE#16] && t.pc == 0x0E#16)
      (step { runningOn [] 0x0D [0x05#8, 0xFE#8, 0xFF#8] with pc := 0x0D#16 }) = true := by decide
/-- O-5: a HALT at 0x0C ends the pass and hands the image back. -/
theorem test_halt_ends_pass :
    nextWith (fun t => t.run == .idle && t.pc == 0#16 && t.mem == none && t.fault == none && t.r1 == 0x0007#16)
      (step { runningOn [] 0x0C [0xFF#8] with pc := 0x0C#16 }) = true := by decide
/-- E-4, its last step. -/
theorem test_illegal_opcode_faults :
    nextWith (fun t => t.fault == some ⟨.invalidInstruction, 0x0C#16, 0x07#16⟩ && t.pc == 0x0C#16)
      (step { runningOn [] 0x0C [0x07#8] with pc := 0x0C#16 }) = true := by decide
/-- P5, its last instruction: operands from the output region. -/
theorem test_operands_from_output_region :
    nextWith (fun t => t.r1 == 0x0010#16 && t.pc == 0x10#16)
      (step { runningOn [] 0x0D [0x03#8, 0x01#8, 0x02#8] with pc := 0x0D#16 }) = true := by decide
/-- The end of the region without a HALT (R104, R108). -/
theorem test_falling_off_ends_pass :
    nextWith (fun t => t.run == .idle && t.pc == 0#16 && t.mem == none)
      (step { runningOn [] 0 [] with pc := 0x0E#16 }) = true := by decide
/-- E-5 -/
theorem test_faulted_refuses_process :
    (match { State.reset with run := .faulted }.attach [] with
      | .refused r => r == .processorFaulted
      | _ => false) = true := by decide
/-- A word placed for the next fetch is the one the next step runs. -/
theorem test_fetch_word_runs_first :
    nextWith (fun t => t.run == .running && t.r1 == 0x0101#16 && t.pc == 3#16)
      (step (State.reset.withFetchWord 24 0x010100)) = true := by decide
/-- W-13 -/
theorem test_flush_output : (memWriteWord [] 0x0E 0xABCD#16).bind flushOutput = .ok 0xABCD#16 := by decide

/-- O-4 as a pass of R115: the image comes back as it was, pc is 0 and nothing is emitted. -/
theorem test_observe_halt_only :
    observePass (State.createProcessor 0x0007#16 0x0009#16) [(0, 0xFF#8)] =
      some ⟨[(0, 0xFF#8)], 0x0007#16, 0x0009#16, 0x0000#16, []⟩ := by decide
/-- E-1: a faulted pass is not finished and shows nothing. -/
theorem test_observe_faulted_pass : observePass (State.createProcessor 0x0007#16 0x0009#16) [] = none := by decide
/-- R113, R115: the chain observes its finished pass; the call after the fault is refused. -/
theorem test_chain_stops_at_fault :
    observeChain [[(0, 0xFF#8)], [], [(0, 0xFF#8)]] (State.createProcessor 0x0007#16 0x0009#16) =
      [⟨[(0, 0xFF#8)], 0x0007#16, 0x0009#16, 0x0000#16, []⟩] := by decide

/-! ### Witnesses: the hypotheses of each statement can be met -/

/-- A pass over an image of STORE r1, 0x03 followed by data. -/
def witnessState : State := runningOn [0x02#8, 0x01#8, 0x03#8] 0x0E [0x2A#8, 0x01#8]

theorem witness_ByteReadIsBoundsChecked : 20 ≤ (20#16).toNat ∧ (19#16).toNat < 20 := by decide
theorem witness_ByteWriteSetsOneByte : 20 ≤ (20#16).toNat ∧ (19#16).toNat < 20 ∧ (18 : Nat) ≠ (19#16).toNat := by
  decide
theorem witness_WordReadReportsFirstByteOutOfRange :
    (0x12#8).toNat ≤ 0x12 ∧ (0x13#8).toNat = 0x13 ∧ 0x14 ≤ (0x14#8).toNat ∧ 0x14 ≤ (0xFF#8).toNat := by decide
theorem witness_WordWrittenThenReadIsThatWord : (0x12 : Nat) ≤ 0x12 ∧ (0x11 : Nat) ≠ 0x12 ∧ (0x11 : Nat) ≠ 0x12 + 1 := by
  decide
theorem witness_RegisterFileHasThreeIds : 3 ≤ (0x03#8).toNat ∧ 3 ≤ (0xFF#8).toNat := by decide
theorem witness_LoadCopiesWordIntoRegister :
    witnessState.mem.isSome = true ∧ (0x12#8).toNat ≤ 0x12 ∧ (0x13#8).toNat = 0x13 ∧ 0x14 ≤ (0x14#8).toNat ∧
      (0x00#8 ≠ 0x01#8 ∧ 0x00#8 ≠ 0x02#8) ∧ (0x03#8 ≠ 0x01#8 ∧ 0x03#8 ≠ 0x02#8) := by decide
theorem witness_StoreCopiesRegisterIntoWord :
    witnessState.mem.isSome = true ∧ witnessState.r1 = 0x0007#16 ∧ witnessState.r2 = 0x0009#16 ∧
      (0x12#8).toNat ≤ 0x12 ∧ (0x13#8).toNat = 0x13 ∧ 0x14 ≤ (0x14#8).toNat := by decide
theorem witness_AddWrapsModuloTwoToTheSixteen :
    (0x00#8 ≠ 0x01#8 ∧ 0x00#8 ≠ 0x02#8) ∧ (0x03#8 ≠ 0x01#8 ∧ 0x03#8 ≠ 0x02#8) := by decide
theorem witness_SubWrapsModuloTwoToTheSixteen :
    (0x00#8 ≠ 0x01#8 ∧ 0x00#8 ≠ 0x02#8) ∧ (0xFF#8 ≠ 0x01#8 ∧ 0xFF#8 ≠ 0x02#8) := by decide
theorem witness_PrintEmitsOutputWord : witnessState.mem.isSome = true := by decide
theorem witness_HaltEndsPass :
    ((Memory.ofBytes []).place 0x0D [0xFF#8]).read 0x0D = 0xFF#8 ∧
      { witnessState with pc := 0x0E#16 }.run = .running ∧ 0x0D < (0x0E#16).toNat := by decide
theorem witness_EndOfPassReturnsImageAndClearsPc :
    (runningOn [0xFF#8] 0 []).run = .running ∧ (runningOn [0xFF#8] 0 []).mem = some [(0, 0xFF#8)] ∧
      Memory.read [(0, 0xFF#8)] (runningOn [0xFF#8] 0 []).pc.toNat = 0xFF#8 ∧ 0x0D < (0x0E#16).toNat := by decide
theorem witness_IllegalOpcodeRaisesInvalidInstruction :
    witnessState.run = .running ∧ witnessState.mem.isSome = true ∧ (0x0D#16).toNat ≤ 0x0D ∧
      Opcode.ofByte (byteAt witnessState 0x0D) = none ∧
      nextWith (fun t => t.fault != (runningOn [] 0 []).fault) (exec (.load 0x00#8 0x00#8) (runningOn [] 0 [])) = true ∧
      nextWith (fun t => t.fault == some ⟨.invalidInstruction, 0x0D#16, 0x00#16⟩)
        (step { witnessState with pc := 0x0D#16 }) = true ∧ witnessState.fault = none := by
  decide
theorem witness_StepRunsDecodedInstruction :
    witnessState.run = .running ∧ witnessState.mem.isSome = true ∧ witnessState.pc.toNat ≤ 0x0D ∧
      decode [byteAt witnessState 0, byteAt witnessState 1, byteAt witnessState 2] = .ok (.store 0x01#8 0x03#8, []) := by
  decide
theorem witness_StepAdvancesByInstructionWidth :
    (runningOn [0x05#8] 0 []).run = .running ∧ byteAt (runningOn [0x05#8] 0 []) 0 = 0x05#8 ∧
      nextWith (fun t => t.run == .running) (step (runningOn [0x05#8] 0 [])) = true ∧
      byteAt witnessState 0 ≠ 0x05#8 ∧ nextWith (fun t => t.run == .running) (step witnessState) = true := by decide
theorem witness_FaultedProcessorNeverRunsAgain : { State.reset with run := .faulted }.run = .faulted := by decide
theorem witness_IdleProcessorTakesNextCall :
    State.reset.run = .idle ∧ State.reset.supplied = [] ∧ (State.reset.supply []).supplied = [[]] := by decide
/-- A running pass meets the invariant (and `State.reset` does too: `ResetMeetsInvariant`). -/
theorem witness_EveryStepKeepsInvariant :
    (runningOn [0xFF#8] 0 []).Inv ∧ nextWith (fun _ => true) (step (runningOn [0xFF#8] 0 [])) = true := by
  refine ⟨⟨⟨by decide, rfl, by decide⟩, ?_, ?_, ?_⟩, by decide⟩
  · intro m hm
    cases hm
    decide
  · intro m hm
    cases hm
  · intro m hm
    cases hm
theorem witness_RunningPassIsNeverStuck :
    (runningOn [0xFF#8] 0 []).Inv ∧ (runningOn [0xFF#8] 0 []).run = .running ∧
      State.reset.Inv ∧ step State.reset = .refused .noImageSupplied := by
  refine ⟨witness_EveryStepKeepsInvariant.1, rfl, ⟨⟨rfl, rfl, rfl⟩, ?_, ?_, ?_⟩, rfl⟩
  · intro m hm
    cases hm
  · intro m hm
    cases hm
  · intro m hm
    cases hm
theorem witness_EveryPassEndsWithinFourteenInstructions :
    witnessState.run = .running ∧ witnessState.mem.isSome = true ∧ witnessState.pc = 0x0000#16 := by decide
/-- The second part: a call whose pass changes a byte of its image, by its STORE. -/
theorem witness_ProcessCallAlwaysReturns :
    State.reset.run = .idle ∧ State.reset.pc = 0x0000#16 ∧ State.reset.fault = none ∧
      Memory.wf (Memory.ofBytes [0x02#8, 0x01#8, 0x0E#8, 0xFF#8]) = true ∧
      nextWith (fun t => (t.returned.map (·.read 0x0E)) == [0x07#8])
        (processPass (State.createProcessor 0x0007#16 0x0009#16)
          (Memory.ofBytes [0x02#8, 0x01#8, 0x0E#8, 0xFF#8])) = true ∧
      Memory.read (Memory.ofBytes [0x02#8, 0x01#8, 0x0E#8, 0xFF#8]) 0x0E = 0x00#8 := by decide
theorem witness_MachineStepsRunWholeProcessCall :
    (State.reset.supply []).run = .idle ∧ (State.reset.supply []).pc = 0x0000#16 ∧
      (State.reset.supply []).supplied = [[]] := by decide
/-- A pass that is finished, one that faults, and a call that is refused. -/
theorem witness_ObservationIsOfFinishedPass :
    (∃ t, PassFinished State.reset [(0, 0xFF#8)] t) ∧
      nextWith (fun t => t.run == .faulted) (processPass State.reset []) = true ∧ witnessState.run ≠ .idle :=
  ⟨⟨_, rfl, rfl⟩, by decide, by decide⟩
theorem witness_ChainedRunObservesFinishedPasses :
    (∃ t, PassFinished State.reset [(0, 0xFF#8)] t) ∧
      nextWith (fun t => t.run == .faulted) (processPass State.reset []) = true :=
  ⟨⟨_, rfl, rfl⟩, by decide⟩
theorem witness_ChainedRunIsCompleteOrFaults :
    State.reset.run = .idle ∧ State.reset.pc = 0x0000#16 ∧ State.reset.fault = none := by decide
theorem witness_OnlyStoreChangesMemory :
    nextWith (fun t => t.mem.isSome && byteAt t 3 != byteAt witnessState 3)
      (exec (.store 0x01#8 0x03#8) witnessState) = true := by decide
theorem witness_OnlyDestinationRegisterChanges :
    nextWith (fun t => t.r1 != witnessState.r1) (exec (.load 0x01#8 0x0E#8) witnessState) = true ∧
      nextWith (fun t => t.r2 != witnessState.r2) (exec (.add 0x02#8 0x01#8) witnessState) = true := by decide
theorem witness_OutputGrowsOnlyByPrint :
    nextWith (fun t => t.out != []) (step (runningOn [0x05#8] 0 [])) = true := by decide
theorem witness_RegistersPersistAcrossPasses :
    nextWith (fun t => t.run != .running) (step (runningOn [0xFF#8] 0 [])) = true ∧
      nextWith (fun t => t.run == .faulted) (step (runningOn [] 0 [])) = true ∧
      nextWith (fun _ => true) (step (State.reset.supply [])) = true := by decide
theorem witness_ImagesOfTheCallerAreNeverTouched :
    witnessState.run = .running ∧ nextWith (fun t => t.run == .running) (step witnessState) = true ∧
      nextWith (fun t => t.run != .running) (step (runningOn [0xFF#8] 0 [])) = true := by decide
theorem witness_LoadThenStoreLeavesMemoryUnchanged :
    witnessState.mem.isSome = true ∧ (0x12#8).toNat ≤ 0x12 ∧ (witnessState.mem.getD []).wf = true := by decide
/-- P4: the STORE at pc turns the next opcode into HALT's. -/
def selfModifying : State := { witnessState with r1 := 0x00FF#16 }
theorem witness_StoreIsSeenByNextFetch :
    selfModifying.run = .running ∧ selfModifying.mem.isSome = true ∧ selfModifying.pc.toNat ≤ 0x0A ∧
      selfModifying.r1 = 0x00FF#16 ∧ (0x03#8).toNat ≤ 0x12 ∧
      nextWith (fun t => t.mem.isSome && decide (decode [byteAt t 3, byteAt t 4, byteAt t 5] =
          .ok (.halt, [0x00#8, 0x00#8])))
        (exec (.store 0x01#8 0x03#8) selfModifying) = true := by decide

end Sys2Proof.Tests
end

section
/-! The registers across the borders of a pass (spec/10_state.md R27, spec/60_exceptions.md R120): a step that
starts a pass attaches an image and no more, and a step after which no pass runs is `endPass` or `raise`. -/

namespace Sys2Proof.Machine

/-- Everything a step from an Idle processor can do: take the host's next call (R111). -/
theorem step_of_idle {s t : State} (h : step s = .next t) (hs : s.run = .idle) :
    ∃ image rest, s.supplied = image :: rest ∧
      t = { s with supplied := rest, mem := some image, run := .running } := by
  rcases step_next_cases h with ⟨hrun, -⟩ | ⟨-, hcall⟩
  · simp [hs] at hrun
  · exact hcall

/-- Everything a step can do after which no pass runs: the normal end of the pass (R108) or a fault (R120). -/
theorem step_not_running {s t : State} (h : step s = .next t) (ht : t.run ≠ .running) :
    t = s.endPass ∨ ∃ f, t = s.raise f := by
  rcases step_next_cases h with ⟨hrun, he⟩ | ⟨-, image, rest, -, rfl⟩
  · rcases engineStep_goesOn_or_ends he with ⟨m, i, -, -, -, -, hgoesOn, -⟩ | hend | ⟨-, hfault⟩
    · exact absurd (hgoesOn.trans hrun) ht
    · exact .inl hend
    · exact .inr hfault
  · exact absurd rfl ht

/-- Settles O34: a start, a normal end and a fault are the only steps it speaks of, and the update of each keeps
R1 and R2; of the three only the normal end leaves the processor Idle. -/
theorem registersPersistAcrossPasses : Obligations.RegistersPersistAcrossPasses := by
  intro s t h hborder
  rcases hborder with hidle | hover
  · obtain ⟨image, rest, -, rfl⟩ := step_of_idle h hidle
    exact ⟨rfl, rfl, by simp⟩
  · rcases step_not_running h hover with rfl | ⟨f, rfl⟩
    · exact ⟨rfl, rfl, fun _ => rfl⟩
    · exact ⟨rfl, rfl, by simp⟩

end Sys2Proof.Machine
end

section
/-! The word codec and the bounds-checked byte access (spec/20_memory.md sections 1 and 2), and what the host
reads of any image (R56). -/

namespace Sys2Proof.Machine

/-- The word decode never wraps: the greatest value, 255 + 256 * 255, still fits 16 bits. -/
theorem decodeWord_toNat (low high : Byte) : (decodeWord low high).toNat = low.toNat + 256 * high.toNat := by
  have hlow := low.isLt
  have hhigh := high.isLt
  exact Nat.mod_eq_of_lt (by omega)

theorem encodeWord_low_toNat (v : Word) : (encodeWord v).1.toNat = v.toNat % 256 :=
  Nat.mod_mod v.toNat 256

/-- The high byte is not cut: a 16-bit value divided by 256 is below 256. -/
theorem encodeWord_high_toNat (v : Word) : (encodeWord v).2.toNat = v.toNat / 256 := by
  have hv := v.isLt
  exact Nat.mod_eq_of_lt (by omega)

theorem encodeWord_low_eq_bits (v : Word) : (encodeWord v).1 = v.extractLsb' 0 8 := by
  apply BitVec.eq_of_toNat_eq
  rw [encodeWord_low_toNat, BitVec.extractLsb'_toNat, Nat.shiftRight_zero]

theorem encodeWord_high_eq_bits (v : Word) : (encodeWord v).2 = v.extractLsb' 8 8 := by
  have hv := v.isLt
  apply BitVec.eq_of_toNat_eq
  rw [encodeWord_high_toNat, BitVec.extractLsb'_toNat, Nat.shiftRight_eq_div_pow]
  omega

/-- The host's read of the output word: both of its bytes are in bounds in every image. -/
theorem flushOutput_eq (m : Memory) : flushOutput m = .ok (decodeWord (m.read 0x0E) (m.read 0x0F)) :=
  memReadWord_ok m (show 0x0E < 19 by omega)

/-- Settles O1. -/
theorem decodeWordTakesLowByteFirst : Obligations.DecodeWordTakesLowByteFirst := decodeWord_toNat

/-- Settles O2: each byte is read both as a number and as a bit field. -/
theorem encodeWordSplitsIntoLowAndHigh : Obligations.EncodeWordSplitsIntoLowAndHigh := fun v =>
  ⟨encodeWord_low_toNat v, encodeWord_high_toNat v,
    Prod.ext (encodeWord_low_eq_bits v) (encodeWord_high_eq_bits v)⟩

/-- Settles O3: a 16-bit address is reported as it is, since nothing of it is cut. -/
theorem byteReadIsBoundsChecked : Obligations.ByteReadIsBoundsChecked := by
  intro m a
  refine ⟨fun hout => ?_, memReadByte_ok m⟩
  rw [memReadByte_out m hout, BitVec.ofNat_toNat, BitVec.setWidth_eq]

/-- Settles O4: in bounds, the image answered is `Memory.write`'s, by its two read laws. -/
theorem byteWriteSetsOneByte : Obligations.ByteWriteSetsOneByte := by
  intro m a v
  refine ⟨fun hout => ?_, fun hin => ?_⟩
  · rw [memWriteByte_out m v hout, BitVec.ofNat_toNat, BitVec.setWidth_eq]
  · exact ⟨m.write a.toNat v, memWriteByte_ok m v hin, Memory.read_write_same m a.toNat v,
      fun b hb => Memory.read_write_other m v hb⟩

/-- Settles O7. -/
theorem flushOutputReadsOutputWord : Obligations.FlushOutputReadsOutputWord := flushOutput_eq

end Sys2Proof.Machine
end

section
/-! The encoding (spec/30_encoding.md): the decoder and the encoder undo each other, and what the engine's
fetch yields is what the decoder reads from the three bytes at pc. -/

namespace Sys2Proof.Machine

/-- The decoder reads an encoding back and leaves the bytes after it. -/
theorem decode_encode (i : Instr) (rest : List Byte) : decode (encode i ++ rest) = .ok (i, rest) := by
  cases i <;> simp [encode, decode, Opcode.ofByte_toByte, decodeTwoOperands]

/-- Two operand bytes are read only where two bytes stand. -/
theorem decodeTwoOperands_eq_ok {mk : Byte → Byte → Instr} {bs rest : List Byte} {i : Instr}
    (h : decodeTwoOperands mk bs = .ok (i, rest)) : ∃ b1 b2, bs = b1 :: b2 :: rest ∧ i = mk b1 b2 := by
  match bs with
  | [] => cases h
  | [_] => cases h
  | b1 :: b2 :: _ =>
    cases h
    exact ⟨b1, b2, rfl, rfl⟩

/-- What the decoder accepts is an encoding: the opcode byte is the one its operation is written with. -/
theorem eq_encode_of_decode {bs rest : List Byte} {i : Instr} (h : decode bs = .ok (i, rest)) :
    bs = encode i ++ rest := by
  cases bs with
  | nil => cases h
  | cons op tail =>
    cases hop : Opcode.ofByte op with
    | none => simp [decode, hop] at h
    | some o =>
      obtain rfl := Opcode.toByte_of_ofByte hop
      cases o with
      | print | halt =>
        simp only [decode, hop] at h
        cases h
        rfl
      | load | store | add | sub =>
        simp only [decode, hop] at h
        obtain ⟨b1, b2, rfl, rfl⟩ := decodeTwoOperands_eq_ok h
        rfl

/-- Settles O16. -/
theorem decodeInvertsEncode : Obligations.DecodeInvertsEncode := by
  intro bs rest i
  constructor
  · exact eq_encode_of_decode
  · rintro rfl
    exact decode_encode i rest

/-- Settles O17: each word is an encoding, with the bytes left over after it. -/
theorem writtenOutWordsDecode : Obligations.WrittenOutWordsDecode :=
  ⟨decode_encode (.load 0x01#8 0x10#8) [], decode_encode (.store 0x01#8 0x0E#8) [],
    decode_encode (.add 0x01#8 0x02#8) [], decode_encode (.sub 0x02#8 0x01#8) [],
    decode_encode .print [0x00#8, 0x00#8], decode_encode .halt []⟩

/-- In the region the fetch yields an instruction exactly where the three bytes at `p` decode to it: the operand
bytes it leaves unfetched are no part of the instruction (R68). -/
theorem fetchInstr_eq_ok_iff (m : Memory) {p : Nat} (hp : p ≤ 0x0D) (i : Instr) :
    fetchInstr m p = .ok i ↔ ∃ rest, decode [m.read p, m.read (p + 1), m.read (p + 2)] = .ok (i, rest) := by
  cases hop : Opcode.ofByte (m.read p) with
  | none => simp [fetchInstr_illegal m hp hop, decode, hop]
  | some o => cases o <;> simp [fetchInstr_legal m hp hop, decode, hop, decodeTwoOperands]

/-- The three bytes at `p` are those of the fetched instruction, then bytes that are not its own. -/
theorem bytes_of_fetchInstr {m : Memory} {p : Nat} (hp : p ≤ 0x0D) {i : Instr} (h : fetchInstr m p = .ok i) :
    ∃ rest, [m.read p, m.read (p + 1), m.read (p + 2)] = encode i ++ rest := by
  obtain ⟨rest, hrest⟩ := (fetchInstr_eq_ok_iff m hp i).1 h
  exact ⟨rest, eq_encode_of_decode hrest⟩

/-- The byte at `p` is the opcode byte of the instruction fetched there. -/
theorem opcode_of_fetchInstr {m : Memory} {p : Nat} (hp : p ≤ 0x0D) {i : Instr} (h : fetchInstr m p = .ok i) :
    m.read p = (Laws.opcodeOf i).toByte := by
  obtain ⟨rest, hbytes⟩ := bytes_of_fetchInstr hp h
  cases i <;> exact (List.cons.inj hbytes).1

/-- The bytes of a fetched STORE: opcode, register operand, address operand. -/
theorem store_bytes_of_fetchInstr {m : Memory} {p : Nat} (hp : p ≤ 0x0D) {r a : Byte}
    (h : fetchInstr m p = .ok (.store r a)) : m.read p = 0x02#8 ∧ m.read (p + 1) = r ∧ m.read (p + 2) = a := by
  obtain ⟨rest, hbytes⟩ := bytes_of_fetchInstr hp h
  simp only [encode, List.cons_append, List.cons.injEq] at hbytes
  exact ⟨hbytes.1, hbytes.2.1, hbytes.2.2.1⟩

/-- Where HALT's byte stands, HALT is fetched. -/
theorem fetchInstr_halt {m : Memory} {p : Nat} (hp : p ≤ 0x0D) (h : m.read p = 0xFF#8) :
    fetchInstr m p = .ok .halt := by
  rw [fetchInstr_eq_ok_iff m hp, h]
  exact ⟨_, decode_encode .halt _⟩

end Sys2Proof.Machine
end

section
/-! The engine's step, by what the fetch yields (spec/44_execution_engine.md section 3), and the machine's
invariant (`State.Inv`). -/

namespace Sys2Proof.Machine

theorem step_of_running {s : State} (h : s.run = .running) : step s = engineStep s := by simp [step, h]

/-- Past the region the loop test fails, and the pass ends (R104, R108). -/
theorem engineStep_of_pastRegion {s : State} (h : 0x0D < s.pc.toNat) : engineStep s = .next s.endPass := by
  simp [engineStep, (State.pastRegion_iff s).2 h]

theorem State.not_pastRegion {s : State} (h : s.pc.toNat ≤ 0x0D) : ¬ s.pastRegion = true := by
  rw [State.pastRegion_iff]
  omega

/-- In the region the engine executes the instruction it fetches. -/
theorem engineStep_of_fetch {s : State} {m : Memory} {i : Instr} (hm : s.mem = some m) (hp : s.pc.toNat ≤ 0x0D)
    (hi : fetchInstr m s.pc.toNat = .ok i) : engineStep s = exec i s := by
  simp [engineStep, State.not_pastRegion hp, withImage_of_mem hm, hi]

/-- In the region an illegal opcode raises InvalidInstruction. -/
theorem engineStep_of_illegal {s : State} {m : Memory} (hm : s.mem = some m) (hp : s.pc.toNat ≤ 0x0D)
    (hop : Opcode.ofByte (m.read s.pc.toNat) = none) :
    engineStep s = .next (s.raise ⟨.invalidInstruction, zext16 (m.read s.pc.toNat)⟩) := by
  simp [engineStep, State.not_pastRegion hp, withImage_of_mem hm, fetchInstr_illegal m hp hop]

/-- In the region with no image attached, the fetch stops the model. -/
theorem engineStep_of_noImage {s : State} (hm : s.mem = none) (hp : s.pc.toNat ≤ 0x0D) :
    engineStep s = .fault .noImageAttached := by simp [engineStep, State.not_pastRegion hp, withImage, hm]

/-! ### The invariant -/

/-- What a fault raised in the region may say: what an instruction's operands raise, or the byte of an illegal
opcode. -/
def RaisedFault.Possible (f : RaisedFault) : Prop :=
  f.ByOperand ∨ ∃ b : Byte, f = ⟨.invalidInstruction, zext16 b⟩ ∧ Opcode.ofByte b = none

/-- The record of a possible fault is legal where the opcode stood in the region. -/
theorem legal_record {p : Word} (hp : p.toNat ≤ 0x0D) {f : RaisedFault} (hf : f.Possible) :
    FaultRecord.Legal ⟨f.kind, p, f.info⟩ := by
  refine ⟨hp, ?_⟩
  obtain ⟨kind, info⟩ := f
  rcases hf with (⟨rfl, hinfo⟩ | ⟨rfl, hinfo⟩) | ⟨b, heq, hop⟩
  · exact hinfo
  · exact hinfo
  · cases heq
    exact ⟨b, rfl, hop⟩

/-- The images the caller owns once the engine lets go are canonical: they were held before. -/
theorem State.ImagesWf.handedBack {s : State} (h : s.ImagesWf) : ∀ m ∈ s.handedBack, m.wf := by
  obtain ⟨hmem, -, hreturned⟩ := h
  intro m hm
  rcases List.mem_append.1 hm with hold | hattached
  · exact hreturned m hold
  · exact hmem m (Option.mem_toList.1 hattached)

/-- A state that has let its image go holds canonical images, if the state before did. -/
theorem State.ImagesWf.of_letGo {s t : State} (h : s.ImagesWf) (hmem : t.mem = none)
    (hsupplied : t.supplied = s.supplied) (hreturned : t.returned = s.handedBack) : t.ImagesWf :=
  ⟨by simp [hmem], hsupplied ▸ h.2.1, hreturned ▸ h.handedBack⟩

/-- The end of a pass leaves an Idle state of the invariant. -/
theorem State.Inv.endPass {s : State} (h : s.Inv) (hrun : s.run = .running) : s.endPass.Inv := by
  obtain ⟨hcoherent, himages⟩ := h
  simp only [State.Coherent, hrun] at hcoherent
  obtain ⟨-, hfault, -⟩ := hcoherent
  exact ⟨⟨rfl, hfault, rfl⟩, himages.of_letGo rfl rfl rfl⟩

/-- A possible fault in the region leaves a Faulted state of the invariant. -/
theorem State.Inv.raise {s : State} (h : s.Inv) (hp : s.pc.toNat ≤ 0x0D) {f : RaisedFault} (hf : f.Possible) :
    (s.raise f).Inv :=
  ⟨⟨rfl, _, rfl, legal_record hp hf, rfl⟩, h.2.of_letGo rfl rfl rfl⟩

/-- An advance by at most 3 from the region stays within 0x10 and does not wrap. -/
theorem toNat_advance {p : Word} (hp : p.toNat ≤ 0x0D) {n : Nat} (hn : n ≤ 3) :
    (p + BitVec.ofNat 16 n).toNat = p.toNat + n := by
  rw [BitVec.toNat_add, BitVec.toNat_ofNat]
  omega

/-- An instruction that goes on from the region keeps the invariant, whatever it does to the registers and the
output, if the image it leaves is canonical. -/
theorem State.Inv.advanced {s : State} (h : s.Inv) (hrun : s.run = .running) (hp : s.pc.toNat ≤ 0x0D)
    {mem : Option Memory} (hsome : mem.isSome = true) (hwf : ∀ m ∈ mem, m.wf) {n : Nat} (hn : n ≤ 3)
    (v1 v2 : Word) (out : List Word) :
    State.Inv { s with r1 := v1, r2 := v2, out := out, mem := mem, pc := s.pc + BitVec.ofNat 16 n } := by
  obtain ⟨hcoherent, -, hsupplied, hreturned⟩ := h
  simp only [State.Coherent, hrun] at hcoherent
  obtain ⟨-, hnoFault, -⟩ := hcoherent
  have hbound : (s.pc + BitVec.ofNat 16 n).toNat ≤ 0x10 := by
    rw [toNat_advance hp hn]
    omega
  refine ⟨?_, hwf, hsupplied, hreturned⟩
  simp only [State.Coherent, hrun]
  exact ⟨hsome, hnoFault, hbound⟩

/-- Every instruction of a running pass keeps the invariant, run from the region. -/
theorem exec_keeps_inv {i : Instr} {s t : State} (h : s.Inv) (hrun : s.run = .running) (hp : s.pc.toNat ≤ 0x0D)
    {m : Memory} (hm : s.mem = some m) (he : exec i s = .next t) : t.Inv := by
  have hsome : s.mem.isSome = true := by simp [hm]
  have hwf : ∀ m ∈ s.mem, m.wf := h.2.1
  rcases exec_next_cases he with ⟨f, hf, rfl⟩ | ⟨-, v1, v2, rfl⟩ | ⟨r, a, v, m1, m', -, hm1, -, hwrite, rfl⟩ |
    ⟨-, m1, -, rfl⟩ | ⟨-, rfl⟩
  · exact h.raise hp (.inl hf)
  · exact h.advanced hrun hp hsome hwf (n := 3) (by omega) v1 v2 s.out
  · have hwf' : ∀ m ∈ some m', m.wf := by simpa using memWriteWord_wf hwrite (hwf m1 hm1)
    exact h.advanced hrun hp rfl hwf' (n := 3) (by omega) s.r1 s.r2 s.out
  · exact h.advanced hrun hp hsome hwf (n := 1) (by omega) s.r1 s.r2 _
  · exact h.endPass hrun

theorem engineStep_keeps_inv {s t : State} (h : s.Inv) (hrun : s.run = .running) (he : engineStep s = .next t) :
    t.Inv := by
  rcases engineStep_next_cases he with ⟨-, rfl⟩ | ⟨hp, m, hm, ⟨i, -, hexec⟩ | ⟨hop, rfl⟩⟩
  · exact h.endPass hrun
  · exact exec_keeps_inv h hrun hp hm hexec
  · exact h.raise hp (.inr ⟨_, rfl, hop⟩)

/-- The host's next call starts a pass in the invariant: between passes pc is 0 and there is no fault. -/
theorem State.Inv.started {s : State} (h : s.Inv) (hrun : s.run = .idle) {image : Memory} {rest : List Memory}
    (hs : s.supplied = image :: rest) :
    State.Inv { s with supplied := rest, mem := some image, run := .running } := by
  obtain ⟨hcoherent, -, hsupplied, hreturned⟩ := h
  simp only [State.Coherent, hrun] at hcoherent
  obtain ⟨-, hfault, hpc⟩ := hcoherent
  rw [hs, List.forall_mem_cons] at hsupplied
  obtain ⟨himage, hrest⟩ := hsupplied
  refine ⟨⟨rfl, hfault, ?_⟩, by simpa using himage, hrest, hreturned⟩
  simp [hpc, Config.entry]

/-- Settles O26. -/
theorem everyStepKeepsInvariant : Obligations.EveryStepKeepsInvariant := by
  intro s t hinv hstep
  rcases step_next_cases hstep with ⟨hrun, he⟩ | ⟨hrun, image, rest, hs, rfl⟩
  · exact engineStep_keeps_inv hinv hrun he
  · exact hinv.started hrun hs

/-- Settles O24. -/
theorem createdProcessorIsIdleAtEntry : Obligations.CreatedProcessorIsIdleAtEntry :=
  ⟨fun _ _ => rfl, 0x0000#16, 0x0000#16, rfl⟩

/-- A created processor is Idle at ENTRY and holds no image at all. -/
theorem createProcessor_inv (u w : Word) : (State.createProcessor u w).Inv :=
  ⟨⟨rfl, rfl, rfl⟩, by simp [State.ImagesWf]⟩

/-- Settles O25. -/
theorem resetMeetsInvariant : Obligations.ResetMeetsInvariant :=
  ⟨createProcessor_inv, createProcessor_inv _ _⟩

/-! ### When the machine steps and when it is refused -/

theorem step_of_faulted {s : State} (h : s.run = .faulted) : step s = .refused .processorFaulted := by
  simp [step, h]

theorem attach_of_faulted {s : State} (image : Memory) (h : s.run = .faulted) :
    s.attach image = .refused .processorFaulted := by simp [State.attach, h]

theorem step_of_idle_call {s : State} (h : s.run = .idle) {image : Memory} {rest : List Memory}
    (hs : s.supplied = image :: rest) :
    step s = .next { s with supplied := rest, mem := some image, run := .running } := by
  simp [step, h, State.hostTurn, hs, State.attach]

theorem step_of_idle_noCall {s : State} (h : s.run = .idle) (hs : s.supplied = []) :
    step s = .refused .noImageSupplied := by simp [step, h, State.hostTurn, hs]

/-- Settles O22. -/
theorem faultedProcessorNeverRunsAgain : Obligations.FaultedProcessorNeverRunsAgain := fun _ h =>
  ⟨step_of_faulted h, fun image => attach_of_faulted image h, fun image => processPass_of_faulted image h⟩

/-- Settles O23. -/
theorem idleProcessorTakesNextCall : Obligations.IdleProcessorTakesNextCall := fun _ h =>
  ⟨fun _ _ hs => step_of_idle_call h hs, step_of_idle_noCall h⟩

/-- In the invariant a running pass has its image, so its step answers a next state. -/
theorem State.Inv.step_isNext {s : State} (h : s.Inv) (hrun : s.run = .running) : ∃ t, step s = .next t := by
  obtain ⟨hcoherent, -⟩ := h
  simp only [State.Coherent, hrun] at hcoherent
  obtain ⟨m, hm⟩ := Option.isSome_iff_exists.1 hcoherent.1
  rw [step_of_running hrun]
  exact engineStep_isNext hm

/-- Settles O27: by the run state, a running pass having its image by the invariant. -/
theorem runningPassIsNeverStuck : Obligations.RunningPassIsNeverStuck := by
  intro s hinv
  cases hrun : s.run with
  | running =>
    obtain ⟨t, ht⟩ := hinv.step_isNext hrun
    simp [ht]
  | faulted => simp [step_of_faulted hrun]
  | idle =>
    cases hs : s.supplied with
    | nil => simp [step_of_idle_noCall hrun hs]
    | cons image rest => simp [step_of_idle_call hrun hs]

end Sys2Proof.Machine
end

section
/-! The word access and the register file (spec/20_memory.md sections 2 and 4, spec/10_state.md section 1), and
from them the equations of each instruction (spec/41_data_transfer.md to spec/43_output_and_halt.md). -/

namespace Sys2Proof.Machine

/-! ### Words and registers -/

/-- A word split into its bytes is that word again. -/
theorem decodeWord_encodeWord (v : Word) : decodeWord (encodeWord v).1 (encodeWord v).2 = v := by
  apply BitVec.eq_of_toNat_eq
  rw [decodeWord_toNat, encodeWord_low_toNat, encodeWord_high_toNat]
  omega

theorem encodeWord_decodeWord (low high : Byte) : encodeWord (decodeWord low high) = (low, high) := by
  have hlow := low.isLt
  refine Prod.ext (BitVec.eq_of_toNat_eq ?_) (BitVec.eq_of_toNat_eq ?_)
  · show (encodeWord _).1.toNat = low.toNat
    rw [encodeWord_low_toNat, decodeWord_toNat]
    omega
  · show (encodeWord _).2.toNat = high.toNat
    rw [encodeWord_high_toNat, decodeWord_toNat]
    omega

/-- Settles O5: by the three ranges of the address. -/
theorem wordReadReportsFirstByteOutOfRange : Obligations.WordReadReportsFirstByteOutOfRange := by
  intro m a
  refine ⟨fun hin => memReadWord_ok m (by omega), fun hlast => ?_, memReadWord_out m⟩
  rw [hlast]
  exact memReadWord_last m

/-- Settles O6: the two bytes stored are the two bytes of the word. -/
theorem wordWrittenThenReadIsThatWord : Obligations.WordWrittenThenReadIsThatWord := by
  refine ⟨decodeWord_encodeWord, fun m a v ha => ?_⟩
  have hwrite := memWriteWord_ok m v (show a < 19 by omega)
  obtain ⟨hlow, hhigh⟩ := memWriteWord_read_stored hwrite
  refine ⟨_, hwrite, ?_, fun b hb hb' => memWriteWord_read_other hwrite hb hb'⟩
  rw [memReadWord_ok _ (by omega), hlow, hhigh, decodeWord_encodeWord]

/-- Past R2's id the register file has no register. -/
theorem regFile_unknown (s : State) {i : Byte} (v : Word) (hi : 3 ≤ i.toNat) :
    regRead s i = .error ⟨.invalidRegister, zext16 i⟩ ∧ regWrite s i v = .error ⟨.invalidRegister, zext16 i⟩ := by
  have h0 : i ≠ Config.pcId := by rintro rfl; exact absurd hi (by decide)
  have h1 : i ≠ Config.r1Id := by rintro rfl; exact absurd hi (by decide)
  have h2 : i ≠ Config.r2Id := by rintro rfl; exact absurd hi (by decide)
  simp [regRead, regWrite, h0, h1, h2]

/-- Settles O8. -/
theorem registerFileHasThreeIds : Obligations.RegisterFileHasThreeIds := by
  intro s i v
  refine ⟨?_, ?_, ?_, regFile_unknown s v⟩ <;> (rintro rfl; exact ⟨rfl, rfl⟩)

/-- A register operand that names `v`, as the statements about STORE say it, is valid and reads as `v`. -/
theorem regRead_of_names {s : State} {r : Byte} {v : Word}
    (h : (r = 0x01#8 ∧ v = s.r1) ∨ (r = 0x02#8 ∧ v = s.r2)) :
    validRegOperand r = true ∧ regRead s r = .ok v := by
  rcases h with ⟨rfl, rfl⟩ | ⟨rfl, rfl⟩ <;> exact ⟨rfl, rfl⟩

/-! ### LOAD -/

theorem exec_load {s : State} {m : Memory} (hm : s.mem = some m) (r a : Byte) :
    exec (.load r a) s = finishBody s operandAdvance (loadBody r a m s) := withImage_of_mem hm _

theorem exec_load_ok {s u : State} {m : Memory} (hm : s.mem = some m) {r a : Byte} (hr : validRegOperand r = true)
    (ha : a.toNat ≤ 0x12)
    (hu : regWrite s r (decodeWord (m.read a.toNat) (m.read (a.toNat + 1))) = .ok u) :
    exec (.load r a) s = .next (u.advance operandAdvance) := by
  rw [exec_load hm, loadBody_valid a m s hr, effectiveAddr, memReadWord_ok m (by omega)]
  simp [Except.bind, hu, finishBody]

theorem exec_load_invalidRegister {s : State} {m : Memory} (hm : s.mem = some m) {r : Byte} (a : Byte)
    (hr : validRegOperand r = false) :
    exec (.load r a) s = .next (s.raise ⟨.invalidRegister, zext16 r⟩) := by
  rw [exec_load hm, loadBody_invalid a m s hr]
  rfl

/-- A word read that faults is LOAD's fault, once the register check has passed. -/
theorem exec_load_outOfBounds {s : State} {m : Memory} (hm : s.mem = some m) {r a : Byte}
    (hr : validRegOperand r = true) {f : RaisedFault} (hf : memReadWord m a.toNat = .error f) :
    exec (.load r a) s = .next (s.raise f) := by
  rw [exec_load hm, loadBody_valid a m s hr, effectiveAddr, hf]
  rfl

/-- Settles O9: the register check, then the three ranges of the address. -/
theorem loadCopiesWordIntoRegister : Obligations.LoadCopiesWordIntoRegister := by
  intro s m r a hm
  obtain ⟨-, hlast, hout⟩ := wordReadReportsFirstByteOutOfRange m a
  refine ⟨rfl, ?_, ?_, ?_, ?_, ?_⟩
  · rintro rfl ha
    exact exec_load_ok hm rfl ha (regWrite_r1 s _)
  · rintro rfl ha
    exact exec_load_ok hm rfl ha (regWrite_r2 s _)
  · intro h1 h2
    exact exec_load_invalidRegister hm a ((validRegOperand_eq_false r).2 ⟨h1, h2⟩)
  · intro hr ha
    exact exec_load_outOfBounds hm ((validRegOperand_iff r).2 hr) (hout ha)
  · intro hr ha
    exact exec_load_outOfBounds hm ((validRegOperand_iff r).2 hr) (hlast ha)

/-! ### STORE -/

theorem exec_store {s : State} {m : Memory} (hm : s.mem = some m) (r a : Byte) :
    exec (.store r a) s = finishBody s operandAdvance (storeBody r a m s) := withImage_of_mem hm _

theorem exec_store_ok {s : State} {m m' : Memory} (hm : s.mem = some m) {r a : Byte} {v : Word}
    (hr : validRegOperand r = true) (hv : regRead s r = .ok v) (hw : memWriteWord m a.toNat v = .ok m') :
    exec (.store r a) s = .next { s with mem := some m', pc := s.pc + 3#16 } := by
  rw [exec_store hm, storeBody_valid a m s hr, hv, effectiveAddr]
  simp only [Except.bind, hw]
  rfl

theorem exec_store_invalidRegister {s : State} {m : Memory} (hm : s.mem = some m) {r : Byte} (a : Byte)
    (hr : validRegOperand r = false) :
    exec (.store r a) s = .next (s.raise ⟨.invalidRegister, zext16 r⟩) := by
  rw [exec_store hm, storeBody_invalid a m s hr]
  rfl

/-- A word write that faults is STORE's fault, once the register check has passed. -/
theorem exec_store_outOfBounds {s : State} {m : Memory} (hm : s.mem = some m) {r a : Byte} {v : Word}
    (hr : validRegOperand r = true) (hv : regRead s r = .ok v) {f : RaisedFault}
    (hf : memWriteWord m a.toNat v = .error f) : exec (.store r a) s = .next (s.raise f) := by
  rw [exec_store hm, storeBody_valid a m s hr, hv, effectiveAddr]
  simp only [Except.bind, hf]
  rfl

/-- Settles O10: the register check, then the three ranges of the address. -/
theorem storeCopiesRegisterIntoWord : Obligations.StoreCopiesRegisterIntoWord := by
  intro s m r a v hm
  refine ⟨rfl, fun hnames => ?_, fun h1 h2 => ?_⟩
  · obtain ⟨hr, hv⟩ := regRead_of_names hnames
    refine ⟨fun ha => ?_, fun ha => ?_, fun ha => ?_⟩
    · have hw := memWriteWord_ok m v (show a.toNat < 19 by omega)
      obtain ⟨hlow, hhigh⟩ := memWriteWord_read_stored hw
      exact ⟨_, exec_store_ok hm hr hv hw, hlow, hhigh, fun b hb hb' => memWriteWord_read_other hw hb hb'⟩
    · exact exec_store_outOfBounds hm hr hv (memWriteWord_out m v ha)
    · exact exec_store_outOfBounds hm hr hv (ha ▸ memWriteWord_last m v)
  · exact exec_store_invalidRegister hm a ((validRegOperand_eq_false r).2 ⟨h1, h2⟩)

/-! ### ADD and SUB -/

theorem addResult_eq (u w : Word) : addResult u w = BitVec.ofNat 16 ((u.toNat + w.toNat) % 65536) := by
  apply BitVec.eq_of_toNat_eq
  simp [addResult]

theorem addResult_toNat (u w : Word) : (addResult u w).toNat = (u.toNat + w.toNat) % 65536 :=
  BitVec.toNat_ofNat _ _

/-- A negative difference is taken plus 65536, where the exact one is not in 16 bits. -/
theorem subResult_eq (u w : Word) : subResult u w =
    BitVec.ofNat 16 (if w.toNat ≤ u.toNat then u.toNat - w.toNat else u.toNat + 65536 - w.toNat) := by
  have hu := u.isLt
  have hw := w.isLt
  apply BitVec.eq_of_toNat_eq
  rw [subResult, BitVec.toNat_ofInt, BitVec.toNat_ofNat]
  split <;> omega

theorem subResult_self (u : Word) : subResult u u = 0x0000#16 := by simp [subResult_eq]

/-- The first operand of ADD and SUB is checked first. -/
theorem finishBody_arithBody_first_invalid (f : Word → Word → Word) {ra : Byte} (rb : Byte) (s : State)
    (h1 : ra ≠ 0x01#8) (h2 : ra ≠ 0x02#8) :
    finishBody s operandAdvance (arithBody f ra rb s) = .next (s.raise ⟨.invalidRegister, zext16 ra⟩) := by
  rw [arithBody_first_invalid f rb s ((validRegOperand_eq_false ra).2 ⟨h1, h2⟩)]
  rfl

theorem finishBody_arithBody_second_invalid (f : Word → Word → Word) {ra rb : Byte} (s : State)
    (ha : ra = 0x01#8 ∨ ra = 0x02#8) (h1 : rb ≠ 0x01#8) (h2 : rb ≠ 0x02#8) :
    finishBody s operandAdvance (arithBody f ra rb s) = .next (s.raise ⟨.invalidRegister, zext16 rb⟩) := by
  rw [arithBody_second_invalid f s ((validRegOperand_iff ra).2 ha) ((validRegOperand_eq_false rb).2 ⟨h1, h2⟩)]
  rfl

/-- Settles O11: for a valid pair the body is one register write of `addResult`. -/
theorem addWrapsModuloTwoToTheSixteen : Obligations.AddWrapsModuloTwoToTheSixteen := by
  intro s ra rb
  simp only [← addResult_eq]
  refine ⟨rfl, ?_, ?_, ?_, ?_, finishBody_arithBody_first_invalid addResult rb s,
    finishBody_arithBody_second_invalid addResult s⟩
  all_goals
    rintro rfl rfl
    rfl

/-- Settles O12: for a valid pair the body is one register write of `subResult`. -/
theorem subWrapsModuloTwoToTheSixteen : Obligations.SubWrapsModuloTwoToTheSixteen := by
  intro s ra rb
  simp only [← subResult_eq]
  refine ⟨rfl, ?_, ?_, ?_, ?_, finishBody_arithBody_first_invalid subResult rb s,
    finishBody_arithBody_second_invalid subResult s⟩
  · rintro rfl rfl
    rw [← subResult_self s.r1]
    rfl
  · rintro rfl rfl
    rfl
  · rintro rfl rfl
    rfl
  · rintro rfl rfl
    rw [← subResult_self s.r2]
    rfl

/-- Settles O37: the second sum adds the first one to w, so the two differ by w. -/
theorem addThenAddBackIsNotEqualising : Obligations.AddThenAddBackIsNotEqualising := by
  intro s
  have hw := s.r2.isLt
  refine ⟨_, _, rfl, rfl, addResult_toNat s.r1 s.r2, ?_, ?_⟩
  · show (addResult s.r2 (addResult s.r1 s.r2)).toNat = _
    rw [addResult_toNat, addResult_toNat]
    omega
  · show addResult s.r1 s.r2 = addResult s.r2 (addResult s.r1 s.r2) ↔ _
    rw [← BitVec.toNat_inj, ← BitVec.toNat_inj, addResult_toNat, addResult_toNat, addResult_toNat]
    simp only [BitVec.toNat_ofNat]
    omega

/-! ### PRINT -/

theorem exec_print {s : State} {m : Memory} (hm : s.mem = some m) :
    exec .print s = .next { s with
      out := s.out ++ [decodeWord (m.read 0x0E) (m.read 0x0F)], pc := s.pc + 1#16 } := by
  have hbody : exec .print s = finishBody s printAdvance (printBody m s) := withImage_of_mem hm _
  rw [hbody, printBody_eq]
  rfl

/-- Settles O13. -/
theorem printEmitsOutputWord : Obligations.PrintEmitsOutputWord := fun _ m hm =>
  ⟨rfl, _, flushOutput_eq m, rfl, exec_print hm⟩

/-! ### LOAD then STORE -/

/-- Storing the word that stands at an address leaves every byte, and a canonical image itself. -/
theorem exec_store_of_word_there {s : State} {m : Memory} (hm : s.mem = some m) {r a : Byte}
    (hr : validRegOperand r = true) (ha : a.toNat ≤ 0x12)
    (hv : regRead s r = .ok (decodeWord (m.read a.toNat) (m.read (a.toNat + 1)))) :
    ∃ m', exec (.store r a) s = .next { s with mem := some m', pc := s.pc + 3#16 } ∧
      (∀ b, m'.read b = m.read b) ∧ (m.wf = true → m' = m) := by
  obtain ⟨m', hw⟩ : ∃ m', memWriteWord m a.toNat (decodeWord (m.read a.toNat) (m.read (a.toNat + 1))) = .ok m' :=
    ⟨_, memWriteWord_ok m _ (by omega)⟩
  obtain ⟨hlow, hhigh⟩ := memWriteWord_read_stored hw
  rw [encodeWord_decodeWord] at hlow hhigh
  have hread : ∀ b, m'.read b = m.read b := by
    intro b
    by_cases h0 : b = a.toNat
    · rw [h0, hlow]
    · by_cases h1 : b = a.toNat + 1
      · rw [h1, hhigh]
      · exact memWriteWord_read_other hw h0 h1
  exact ⟨m', exec_store_ok hm hr hv hw, hread, fun hwf => Memory.eq_of_read (memWriteWord_wf hw hwf) hwf hread⟩

/-- A register written and, after any advance, read again: the image stays, and the register holds the value. -/
theorem regWrite_then_read (s : State) (v : Word) (n : Nat) {r : Byte} (hr : r = 0x01#8 ∨ r = 0x02#8) :
    ∃ u, regWrite s r v = .ok u ∧ u.mem = s.mem ∧ regRead (u.advance n) r = .ok v ∧
      (r = 0x01#8 → u.r1 = v) ∧ (r = 0x02#8 → u.r2 = v) := by
  rcases hr with rfl | rfl
  · exact ⟨_, regWrite_r1 s v, rfl, rfl, fun _ => rfl, fun h => absurd h (by decide)⟩
  · exact ⟨_, regWrite_r2 s v, rfl, rfl, fun h => absurd h (by decide), fun _ => rfl⟩

/-- Settles O36: the register LOAD writes holds the word that stands at the address. -/
theorem loadThenStoreLeavesMemoryUnchanged : Obligations.LoadThenStoreLeavesMemoryUnchanged := by
  intro s m r a hm hr ha
  have hvalid := (validRegOperand_iff r).2 hr
  obtain ⟨u, hu, hmem, hv, hr1, hr2⟩ :=
    regWrite_then_read s (decodeWord (m.read a.toNat) (m.read (a.toNat + 1))) operandAdvance hr
  obtain ⟨m', hstore, hread, hwf⟩ :=
    exec_store_of_word_there (s := u.advance operandAdvance) (hmem.trans hm) hvalid ha hv
  exact ⟨_, _, m', exec_load_ok hm hvalid ha hu, hstore, rfl, hread, hwf, hr1, hr2⟩

end Sys2Proof.Machine
end

section
/-! One step of a pass: HALT and the end of the region, illegal opcodes, the advance, and the fetch after a STORE
(spec/44_execution_engine.md sections 3 and 4, spec/30_encoding.md section 4, spec/60_exceptions.md). -/

namespace Sys2Proof.Machine

/-! ### The step by its fetch -/

/-- Settles O21. -/
theorem takingFaultWritesRecordOnly : Obligations.TakingFaultWritesRecordOnly := fun _ _ => rfl

/-- Settles O19. -/
theorem stepRunsDecodedInstruction : Obligations.StepRunsDecodedInstruction := by
  intro s m i rest hrun hm hp hdecode
  rw [step_of_running hrun]
  exact engineStep_of_fetch hm hp ((fetchInstr_eq_ok_iff m hp i).2 ⟨rest, hdecode⟩)

/-- A running pass ends by HALT at pc or by the end of the region, with the same state. -/
theorem step_ends {s : State} {m : Memory} (hrun : s.run = .running) (hm : s.mem = some m)
    (h : (s.pc.toNat ≤ 0x0D ∧ m.read s.pc.toNat = 0xFF#8) ∨ 0x0D < s.pc.toNat) : step s = .next s.endPass := by
  rw [step_of_running hrun]
  rcases h with ⟨hp, hhalt⟩ | hpast
  · exact engineStep_of_fetch hm hp (fetchInstr_halt hp hhalt)
  · exact engineStep_of_pastRegion hpast

/-- Settles O15. -/
theorem endOfPassReturnsImageAndClearsPc : Obligations.EndOfPassReturnsImageAndClearsPc := fun s _ hrun hm h =>
  ⟨s.endPass, step_ends hrun hm h, rfl, rfl, State.handedBack_of_mem hm, rfl, rfl, rfl, rfl, rfl, rfl⟩

/-- HALT's opcode byte has no operand bytes, so none is fetched. -/
theorem instrBytes_halt {m : Memory} {p : Nat} (hp : p ≤ 0x0D) (h : m.read p = 0xFF#8) :
    instrBytes m p = [0xFF#8] := by
  have hcount : operandCountOf 0xFF#8 = 0 := rfl
  simp [instrBytes_inRegion m hp, h, hcount]

/-- Settles O14. -/
theorem haltEndsPass : Obligations.HaltEndsPass :=
  ⟨rfl, fun _ _ hp h => instrBytes_halt hp h, fun s =>
    ⟨s.endPass, rfl, rfl, fun hrun hpast => (step_of_running hrun).trans (engineStep_of_pastRegion hpast),
      fun _ => rfl⟩⟩

/-! ### Illegal opcodes -/

/-- The opcode table's six rows; every other byte is illegal. -/
theorem Opcode.ofByte_eq_none_iff (b : Byte) :
    Opcode.ofByte b = none ↔ b = 0x00#8 ∨ (0x06#8 ≤ b ∧ b ≤ 0xFE#8) := by
  cases hop : Opcode.ofByte b with
  | some o =>
    obtain rfl := Opcode.toByte_of_ofByte hop
    cases o <;> decide
  | none =>
    have hne : ∀ o : Opcode, b ≠ o.toByte := by
      rintro o rfl
      simp [Opcode.ofByte_toByte] at hop
    have hload : b ≠ 0x01#8 := hne .load
    have hstore : b ≠ 0x02#8 := hne .store
    have hadd : b ≠ 0x03#8 := hne .add
    have hsub : b ≠ 0x04#8 := hne .sub
    have hprint : b ≠ 0x05#8 := hne .print
    have hhalt : b ≠ 0xFF#8 := hne .halt
    simp only [true_iff]
    bv_omega

/-- 250 bytes are in no row. -/
theorem illegalOpcodes_length :
    ((List.range 256).filter fun n => (Opcode.ofByte (BitVec.ofNat 8 n)).isNone).length = 250 := by
  decide +kernel

theorem instrBytes_illegal {m : Memory} {p : Nat} (hp : p ≤ 0x0D) (hop : Opcode.ofByte (m.read p) = none) :
    instrBytes m p = [m.read p] := by
  have hcount : operandCountOf (m.read p) = 0 := by simp [operandCountOf, hop]
  simp [instrBytes_inRegion m hp, hcount]

/-- An instruction either leaves the fault record or takes a fault its operands raise. -/
theorem exec_fault_cases {i : Instr} {s t : State} (h : exec i s = .next t) :
    t.fault = s.fault ∨ ∃ f : RaisedFault, f.ByOperand ∧ t = s.raise f := by
  rcases exec_next_cases h with hraise | ⟨-, v1, v2, rfl⟩ | ⟨r, a, v, m, m', -, -, -, -, rfl⟩ |
    ⟨-, m, -, rfl⟩ | ⟨-, rfl⟩
  · exact .inr hraise
  all_goals exact .inl rfl

/-- No operand raises InvalidInstruction. -/
theorem RaisedFault.ByOperand.kind_ne {f : RaisedFault} (h : f.ByOperand) : f.kind ≠ .invalidInstruction := by
  rcases h with ⟨hkind, -⟩ | ⟨hkind, -⟩ <;> simp [hkind]

/-- An instruction's own execution never leaves a new record of kind InvalidInstruction. -/
theorem exec_fault_kind {i : Instr} {s t : State} (h : exec i s = .next t) (hnew : t.fault ≠ s.fault) :
    ∃ f, t.fault = some f ∧ f.kind ≠ .invalidInstruction := by
  rcases exec_fault_cases h with hsame | ⟨f, hf, rfl⟩
  · exact absurd hsame hnew
  · exact ⟨_, rfl, hf.kind_ne⟩

/-- A step that leaves a new record of kind InvalidInstruction met an illegal opcode at pc, and the record says
so. -/
theorem step_invalidInstruction {s t : State} {f : FaultRecord} (h : step s = .next t) (hnew : t.fault ≠ s.fault)
    (hf : t.fault = some f) (hkind : f.kind = .invalidInstruction) :
    s.run = .running ∧ s.pc.toNat ≤ 0x0D ∧ ∃ m, s.mem = some m ∧ Opcode.ofByte (m.read s.pc.toNat) = none ∧
      f.info = zext16 (m.read s.pc.toNat) ∧ f.pcAtFault = s.pc := by
  rcases step_next_cases h with ⟨hrun, he⟩ | ⟨-, image, rest, -, rfl⟩
  · rcases engineStep_next_cases he with ⟨-, rfl⟩ | ⟨hp, m, hm, ⟨i, -, hexec⟩ | ⟨hop, rfl⟩⟩
    · exact absurd rfl hnew
    · obtain ⟨g, hg, hgkind⟩ := exec_fault_kind hexec hnew
      obtain rfl : f = g := Option.some.inj (hf.symm.trans hg)
      exact absurd hkind hgkind
    · cases hf
      exact ⟨hrun, hp, m, hm, hop, rfl, rfl⟩
  · exact absurd rfl hnew

/-- Settles O18. -/
theorem illegalOpcodeRaisesInvalidInstruction : Obligations.IllegalOpcodeRaisesInvalidInstruction := by
  refine ⟨rfl, Opcode.ofByte_eq_none_iff, illegalOpcodes_length, fun s m hrun hm hp hop => ?_,
    fun i s t => exec_fault_kind, fun s t f => step_invalidInstruction⟩
  refine ⟨instrBytes_illegal hp hop, ?_⟩
  rw [step_of_running hrun]
  exact engineStep_of_illegal hm hp hop

/-! ### The advance -/

/-- An instruction after which the pass still runs advances pc by its width: 1 for PRINT, else 3. -/
theorem exec_running_pc {i : Instr} {s t : State} (h : exec i s = .next t) (ht : t.run = .running) :
    (i = .print ∧ t.pc = s.pc + BitVec.ofNat 16 1) ∨ (i ≠ .print ∧ t.pc = s.pc + BitVec.ofNat 16 3) := by
  rcases exec_next_cases h with ⟨f, -, rfl⟩ | ⟨hw, v1, v2, rfl⟩ | ⟨r, a, v, m, m', rfl, -, -, -, rfl⟩ |
    ⟨rfl, m, -, rfl⟩ | ⟨-, rfl⟩
  · simp at ht
  · exact .inr ⟨by rintro rfl; exact hw, rfl⟩
  · exact .inr ⟨by simp, rfl⟩
  · exact .inl ⟨rfl, rfl⟩
  · simp at ht

/-- A step after which the pass still runs executed the instruction fetched at pc, in the region. -/
theorem engineStep_running {s t : State} (h : engineStep s = .next t) (ht : t.run = .running) :
    ∃ m i, s.mem = some m ∧ s.pc.toNat ≤ 0x0D ∧ fetchInstr m s.pc.toNat = .ok i ∧ exec i s = .next t := by
  rcases engineStep_goesOn_or_ends h with ⟨m, i, hm, hp, hi, hexec, -⟩ | rfl | ⟨-, f, rfl⟩
  · exact ⟨m, i, hm, hp, hi, hexec⟩
  · simp at ht
  · simp at ht

/-- PRINT's opcode byte is no other instruction's. -/
theorem opcodeOf_toByte_eq_print_iff (i : Instr) : (Laws.opcodeOf i).toByte = 0x05#8 ↔ i = .print := by
  cases i <;> simp [Laws.opcodeOf, Opcode.toByte]

/-- Settles O20. -/
theorem stepAdvancesByInstructionWidth : Obligations.StepAdvancesByInstructionWidth := by
  intro s t m hrun hm hstep ht
  rw [step_of_running hrun] at hstep
  obtain ⟨m1, i, hm1, hp, hi, hexec⟩ := engineStep_running hstep ht
  obtain rfl : m = m1 := Option.some.inj (hm.symm.trans hm1)
  rw [opcode_of_fetchInstr hp hi, Ne, opcodeOf_toByte_eq_print_iff]
  rcases exec_running_pc hexec ht with ⟨hprint, hpc⟩ | ⟨hother, hpc⟩
  · rw [hpc, toNat_advance hp (by omega)]
    exact ⟨fun _ => rfl, absurd hprint, by omega⟩
  · rw [hpc, toNat_advance hp (by omega)]
    exact ⟨(absurd · hother), fun _ => rfl, by omega⟩

/-! ### The fetch after a STORE -/

/-- The image after a word write, at every address. -/
theorem memWriteWord_read {m m' : Memory} {a : Nat} {v : Word} (h : memWriteWord m a v = .ok m') (b : Nat) :
    m'.read b = if b = a then BitVec.ofNat 8 (v.toNat % 256)
      else if b = a + 1 then BitVec.ofNat 8 (v.toNat / 256) else m.read b := by
  obtain ⟨hlow, hhigh⟩ := memWriteWord_read_stored h
  split_ifs with h0 h1
  · rw [h0, hlow]
    rfl
  · rw [h1, hhigh]
    rfl
  · exact memWriteWord_read_other h h0 h1

/-- Settles O38: the next step fetches from the image the STORE left. -/
theorem storeIsSeenByNextFetch : Obligations.StoreIsSeenByNextFetch := by
  intro s t m r a v hrun hm hp hnames ha hexec
  obtain ⟨hr, hv⟩ := regRead_of_names hnames
  have hw := memWriteWord_ok m v (show a.toNat < 19 by omega)
  rw [exec_store_ok hm hr hv hw] at hexec
  cases hexec
  refine ⟨_, rfl, memWriteWord_read hw, fun i rest hdecode => ?_⟩
  have hpc : (s.pc + 3#16).toNat = s.pc.toNat + 3 := toNat_advance (n := 3) (by omega) (by omega)
  refine stepRunsDecodedInstruction _ _ i rest hrun rfl ?_ ?_
  · show (s.pc + 3#16).toNat ≤ 0x0D
    omega
  · show decode [Memory.read _ (s.pc + 3#16).toNat, _, _] = _
    rw [hpc]
    exact hdecode

end Sys2Proof.Machine
end

section
/-! What a step leaves alone: memory but for STORE, the registers but for a destination, the output but for
PRINT, and the caller's images (spec/10_state.md sections 1 to 3, spec/20_memory.md sections 5 and 6). -/

namespace Sys2Proof.Machine

/-! ### Memory -/

/-- An image still attached after an instruction is the one before, or the one a STORE's word write answers. -/
theorem exec_image_cases {i : Instr} {s t : State} {m m' : Memory} (h : exec i s = .next t)
    (hm : s.mem = some m) (hm' : t.mem = some m') :
    m' = m ∨ ∃ r a v, i = .store r a ∧ memWriteWord m (effectiveAddr a) v = .ok m' := by
  have same : t.mem = s.mem → m' = m := fun hsame => Option.some.inj (hm'.symm.trans (hsame.trans hm))
  rcases exec_next_cases h with ⟨f, -, rfl⟩ | ⟨-, v1, v2, rfl⟩ | ⟨r, a, v, m1, m2, hi, hm1, -, hw, rfl⟩ |
    ⟨-, m1, -, rfl⟩ | ⟨-, rfl⟩
  · simp at hm'
  · exact .inl (same rfl)
  · obtain rfl : m = m1 := Option.some.inj (hm.symm.trans hm1)
    obtain rfl : m2 = m' := Option.some.inj hm'
    exact .inr ⟨r, a, v, hi, hw⟩
  · exact .inl (same rfl)
  · simp at hm'

/-- An instruction that changes a byte of the attached image is a STORE, at one of the two bytes it writes. -/
theorem exec_changed_byte {i : Instr} {s t : State} {m m' : Memory} {b : Nat} (h : exec i s = .next t)
    (hm : s.mem = some m) (hm' : t.mem = some m') (hb : m'.read b ≠ m.read b) :
    ∃ r a, i = .store r a ∧ (b = effectiveAddr a ∨ b = effectiveAddr a + 1) ∧ b < 0x14 := by
  rcases exec_image_cases h hm hm' with rfl | ⟨r, a, v, hi, hw⟩
  · exact absurd rfl hb
  · have hbyte : b = effectiveAddr a ∨ b = effectiveAddr a + 1 := by
      by_contra hother
      rw [not_or] at hother
      exact hb (memWriteWord_read_other hw hother.1 hother.2)
    obtain ⟨ha, -⟩ := memWriteWord_eq_ok hw
    exact ⟨r, a, hi, hbyte, by omega⟩

/-- An image still attached after an instruction is canonical if the one before was. -/
theorem exec_image_wf {i : Instr} {s t : State} {m m' : Memory} (h : exec i s = .next t)
    (hm : s.mem = some m) (hm' : t.mem = some m') (hwf : m.wf = true) : m'.wf = true := by
  rcases exec_image_cases h hm hm' with rfl | ⟨r, a, v, -, hw⟩
  · exact hwf
  · exact memWriteWord_wf hw hwf

/-- Settles O30. -/
theorem onlyStoreChangesMemory : Obligations.OnlyStoreChangesMemory := fun _ _ _ _ _ _ => exec_changed_byte

/-! ### Registers -/

/-- R1 and R2 change in `t` only where `r` names them. -/
def ChangesOnlyRegister (r : Byte) (s t : State) : Prop :=
  (t.r1 ≠ s.r1 → r = 0x01#8) ∧ (t.r2 ≠ s.r2 → r = 0x02#8)

theorem ChangesOnlyRegister.of_unchanged {r : Byte} {s t : State} (h1 : t.r1 = s.r1) (h2 : t.r2 = s.r2) :
    ChangesOnlyRegister r s t := ⟨absurd h1, absurd h2⟩

theorem regWrite_changesOnly {s u : State} {r : Byte} {v : Word} (hr : validRegOperand r = true)
    (h : regWrite s r v = .ok u) : ChangesOnlyRegister r s u := by
  rcases (validRegOperand_iff r).1 hr with rfl | rfl
  · cases h
    exact ⟨fun _ => rfl, absurd rfl⟩
  · cases h
    exact ⟨absurd rfl, fun _ => rfl⟩

/-- What LOAD's body answers is a write of its register operand. -/
theorem loadBody_eq_ok {r a : Byte} {m : Memory} {s u : State} (h : loadBody r a m s = .ok u) :
    validRegOperand r = true ∧ ∃ v, regWrite s r v = .ok u := by
  cases hr : validRegOperand r with
  | false => simp [loadBody_invalid a m s hr] at h
  | true =>
    rw [loadBody_valid a m s hr] at h
    cases hv : memReadWord m (effectiveAddr a) with
    | error f => simp [hv, Except.bind] at h
    | ok v => exact ⟨rfl, v, by simpa [hv, Except.bind] using h⟩

/-- What the body of ADD and SUB answers is a write of the first operand's register. -/
theorem arithBody_eq_ok {f : Word → Word → Word} {ra rb : Byte} {s u : State} (h : arithBody f ra rb s = .ok u) :
    validRegOperand ra = true ∧ ∃ v, regWrite s ra v = .ok u := by
  cases ha : validRegOperand ra with
  | false => simp [arithBody_first_invalid f rb s ha] at h
  | true =>
    cases hb : validRegOperand rb with
    | false => simp [arithBody_second_invalid f s ha hb] at h
    | true =>
      obtain ⟨v, hv⟩ := regRead_valid s ha
      obtain ⟨w, hw⟩ := regRead_valid s hb
      exact ⟨rfl, f v w, by simpa [arithBody_valid f s ha hb, hv, hw, Except.bind] using h⟩

/-- An instruction whose body can only write the register `r` changes no other. -/
theorem finishBody_changesOnly {s t : State} {n : Nat} {body : Except RaisedFault State} {r : Byte}
    (hbody : ∀ u, body = .ok u → validRegOperand r = true ∧ ∃ v, regWrite s r v = .ok u)
    (h : finishBody s n body = .next t) : ChangesOnlyRegister r s t := by
  rcases finishBody_next h with ⟨u, hu, rfl⟩ | ⟨f, -, rfl⟩
  · obtain ⟨hr, v, hv⟩ := hbody u hu
    exact (regWrite_changesOnly hr hv : ChangesOnlyRegister r s u)
  · exact .of_unchanged rfl rfl

/-- STORE, PRINT and HALT keep both registers. -/
theorem exec_keeps_registers {i : Instr} {s t : State} (hi : ¬ Instr.WritesRegister i) (h : exec i s = .next t) :
    t.r1 = s.r1 ∧ t.r2 = s.r2 := by
  rcases exec_next_cases h with ⟨f, -, rfl⟩ | ⟨hw, -⟩ | ⟨r, a, v, m, m', -, -, -, -, rfl⟩ | ⟨-, m, -, rfl⟩ |
    ⟨-, rfl⟩
  · exact ⟨rfl, rfl⟩
  · exact absurd hw hi
  all_goals exact ⟨rfl, rfl⟩

/-- Settles O31: by the instruction, LOAD, ADD and SUB writing the register their first operand names. -/
theorem onlyDestinationRegisterChanges : Obligations.OnlyDestinationRegisterChanges := by
  intro i s t h
  cases i with
  | load r a =>
    obtain ⟨m, -, hbody⟩ := withImage_next h
    obtain ⟨h1, h2⟩ := finishBody_changesOnly (fun _ => loadBody_eq_ok) hbody
    exact ⟨fun hne => .inl ⟨a, by rw [h1 hne]⟩, fun hne => .inl ⟨a, by rw [h2 hne]⟩⟩
  | add ra rb =>
    obtain ⟨h1, h2⟩ := finishBody_changesOnly (fun _ => arithBody_eq_ok) h
    exact ⟨fun hne => .inr (.inl ⟨rb, by rw [h1 hne]⟩), fun hne => .inr (.inl ⟨rb, by rw [h2 hne]⟩)⟩
  | sub ra rb =>
    obtain ⟨h1, h2⟩ := finishBody_changesOnly (fun _ => arithBody_eq_ok) h
    exact ⟨fun hne => .inr (.inr ⟨rb, by rw [h1 hne]⟩), fun hne => .inr (.inr ⟨rb, by rw [h2 hne]⟩)⟩
  | store | print | halt =>
    obtain ⟨h1, h2⟩ := exec_keeps_registers id h
    exact ⟨absurd h1, absurd h2⟩

/-! ### The output sequence -/

/-- An instruction leaves the output, or is PRINT and appends the output word. -/
theorem exec_out_cases {i : Instr} {s t : State} (h : exec i s = .next t) :
    t.out = s.out ∨ (i = .print ∧ ∃ m, s.mem = some m ∧
      t.out = s.out ++ [decodeWord (m.read 0x0E) (m.read 0x0F)]) := by
  rcases exec_next_cases h with ⟨f, -, rfl⟩ | ⟨-, v1, v2, rfl⟩ | ⟨r, a, v, m, m', -, -, -, -, rfl⟩ |
    ⟨hi, m, hm, rfl⟩ | ⟨-, rfl⟩
  case inr.inr.inr.inl => exact .inr ⟨hi, m, hm, rfl⟩
  all_goals exact .inl rfl

/-- Settles O32. -/
theorem outputGrowsOnlyByPrint : Obligations.OutputGrowsOnlyByPrint := by
  intro s t h
  rcases step_next_cases h with ⟨hrun, he⟩ | ⟨-, image, rest, -, rfl⟩
  · rcases engineStep_next_cases he with ⟨-, rfl⟩ | ⟨hp, m, hm, ⟨i, hi, hexec⟩ | ⟨-, rfl⟩⟩
    · exact .inl rfl
    · rcases exec_out_cases hexec with hsame | ⟨rfl, m1, hm1, hout⟩
      · exact .inl hsame
      · obtain rfl : m = m1 := Option.some.inj (hm.symm.trans hm1)
        exact .inr ⟨hrun, m, hm, opcode_of_fetchInstr hp hi, hout⟩
    · exact .inl rfl
  · exact .inl rfl

/-! ### Earlier emissions

Each operation commutes with putting earlier emissions in front of `out`, from the register file up to the step. -/

/-- The state with earlier emissions in front of its own. -/
def State.withEarlier (earlier : List Word) (s : State) : State := { s with out := earlier ++ s.out }

/-- The outcome with its next state changed by `f`, a stop as it is. -/
def mapNext (f : State → State) : Host.Outcome State Fault Refusal → Host.Outcome State Fault Refusal
  | .next t => .next (f t)
  | .fault r => .fault r
  | .refused r => .refused r

section
variable (earlier : List Word) (s : State)

theorem regRead_withEarlier (i : Byte) : regRead (s.withEarlier earlier) i = regRead s i := rfl

theorem regWrite_withEarlier (i : Byte) (v : Word) :
    regWrite (s.withEarlier earlier) i v = (regWrite s i v).map (State.withEarlier earlier) := by
  unfold regWrite
  split_ifs <;> rfl

theorem loadBody_withEarlier (r a : Byte) (m : Memory) :
    loadBody r a m (s.withEarlier earlier) = (loadBody r a m s).map (State.withEarlier earlier) := by
  cases hr : validRegOperand r with
  | false => simp only [loadBody_invalid a m _ hr, Except.map]
  | true =>
    rw [loadBody_valid a m _ hr, loadBody_valid a m s hr]
    cases memReadWord m (effectiveAddr a) with
    | error f => rfl
    | ok v => exact regWrite_withEarlier earlier s r v

theorem storeBody_withEarlier (r a : Byte) (m : Memory) :
    storeBody r a m (s.withEarlier earlier) = (storeBody r a m s).map (State.withEarlier earlier) := by
  cases hr : validRegOperand r with
  | false => simp only [storeBody_invalid a m _ hr, Except.map]
  | true =>
    obtain ⟨v, hv⟩ := regRead_valid s hr
    rw [storeBody_valid a m _ hr, storeBody_valid a m s hr, regRead_withEarlier, hv]
    simp only [Except.bind]
    cases memWriteWord m (effectiveAddr a) v <;> rfl

theorem arithBody_withEarlier (f : Word → Word → Word) (ra rb : Byte) :
    arithBody f ra rb (s.withEarlier earlier) = (arithBody f ra rb s).map (State.withEarlier earlier) := by
  cases ha : validRegOperand ra with
  | false => simp only [arithBody_first_invalid f rb _ ha, Except.map]
  | true =>
    cases hb : validRegOperand rb with
    | false => simp only [arithBody_second_invalid f _ ha hb, Except.map]
    | true =>
      obtain ⟨u, hu⟩ := regRead_valid s ha
      obtain ⟨w, hw⟩ := regRead_valid s hb
      rw [arithBody_valid f _ ha hb, arithBody_valid f s ha hb, regRead_withEarlier, regRead_withEarlier, hu, hw]
      exact regWrite_withEarlier earlier s ra (f u w)

theorem printBody_withEarlier (m : Memory) :
    printBody m (s.withEarlier earlier) = (printBody m s).map (State.withEarlier earlier) := by
  simp [printBody_eq, Except.map, State.emit, State.withEarlier]

theorem finishBody_withEarlier (n : Nat) (body : Except RaisedFault State) :
    finishBody (s.withEarlier earlier) n (body.map (State.withEarlier earlier)) =
      mapNext (State.withEarlier earlier) (finishBody s n body) := by
  cases body <;> rfl

theorem withImage_withEarlier {k k' : Memory → Host.Outcome State Fault Refusal}
    (hk : ∀ m, k' m = mapNext (State.withEarlier earlier) (k m)) :
    withImage (s.withEarlier earlier) k' = mapNext (State.withEarlier earlier) (withImage s k) := by
  cases hm : s.mem with
  | none => simp [withImage, State.withEarlier, hm, mapNext]
  | some m => simp [withImage, State.withEarlier, hm, hk]

theorem exec_withEarlier (i : Instr) :
    exec i (s.withEarlier earlier) = mapNext (State.withEarlier earlier) (exec i s) := by
  cases i with
  | load r a =>
    refine withImage_withEarlier earlier s fun m => ?_
    rw [loadBody_withEarlier, finishBody_withEarlier]
  | store r a =>
    refine withImage_withEarlier earlier s fun m => ?_
    rw [storeBody_withEarlier, finishBody_withEarlier]
  | add ra rb => simp only [exec, execAdd, arithBody_withEarlier, finishBody_withEarlier]
  | sub ra rb => simp only [exec, execSub, arithBody_withEarlier, finishBody_withEarlier]
  | print =>
    refine withImage_withEarlier earlier s fun m => ?_
    rw [printBody_withEarlier, finishBody_withEarlier]
  | halt => rfl

theorem engineStep_withEarlier :
    engineStep (s.withEarlier earlier) = mapNext (State.withEarlier earlier) (engineStep s) := by
  rcases Nat.lt_or_ge 0x0D s.pc.toNat with hpast | hp
  · rw [engineStep_of_pastRegion hpast, engineStep_of_pastRegion (s := s.withEarlier earlier) hpast]
    rfl
  · cases hm : s.mem with
    | none =>
      rw [engineStep_of_noImage hm hp, engineStep_of_noImage (s := s.withEarlier earlier) hm hp]
      rfl
    | some m =>
      rcases fetchInstr_cases m hp with ⟨i, hi⟩ | ⟨hop, -⟩
      · rw [engineStep_of_fetch hm hp hi, engineStep_of_fetch (s := s.withEarlier earlier) hm hp hi]
        exact exec_withEarlier earlier s i
      · rw [engineStep_of_illegal hm hp hop, engineStep_of_illegal (s := s.withEarlier earlier) hm hp hop]
        rfl

theorem step_withEarlier :
    step (s.withEarlier earlier) = mapNext (State.withEarlier earlier) (step s) := by
  cases hrun : s.run with
  | running =>
    rw [step_of_running hrun, step_of_running (s := s.withEarlier earlier) hrun]
    exact engineStep_withEarlier earlier s
  | faulted =>
    rw [step_of_faulted hrun, step_of_faulted (s := s.withEarlier earlier) hrun]
    rfl
  | idle =>
    cases hs : s.supplied with
    | nil =>
      rw [step_of_idle_noCall hrun hs, step_of_idle_noCall (s := s.withEarlier earlier) hrun hs]
      rfl
    | cons image rest =>
      rw [step_of_idle_call hrun hs, step_of_idle_call (s := s.withEarlier earlier) hrun hs]
      rfl

end

/-- Settles O33. -/
theorem earlierOutputNeverInfluencesStep : Obligations.EarlierOutputNeverInfluencesStep := by
  intro s earlier
  have hcommutes := step_withEarlier earlier s
  cases hstep : step s <;> rw [hstep] at hcommutes <;> exact hcommutes

/-! ### The caller's images -/

/-- An engine step leaves the coming images, and hands the attached one back exactly if it ends the pass. -/
theorem engineStep_callerImages {s t : State} (h : engineStep s = .next t) :
    t.supplied = s.supplied ∧
      ((t.run = s.run ∧ t.returned = s.returned) ∨ (t.run ≠ .running ∧ t.returned = s.handedBack)) := by
  rcases engineStep_goesOn_or_ends h with ⟨-, -, -, -, -, -, hrun, -, -, hreturned, hsupplied, -⟩ | rfl |
    ⟨-, f, rfl⟩
  · exact ⟨hsupplied, .inl ⟨hrun, hreturned⟩⟩
  · exact ⟨rfl, .inr ⟨by simp, rfl⟩⟩
  · exact ⟨rfl, .inr ⟨by simp, rfl⟩⟩

/-- Settles O35: an Idle processor takes the first coming image; a pass goes on, or hands its image back. -/
theorem imagesOfTheCallerAreNeverTouched : Obligations.ImagesOfTheCallerAreNeverTouched := by
  intro s t h
  rcases step_next_cases h with ⟨hrun, he⟩ | ⟨hrun, image, rest, hs, rfl⟩
  · obtain ⟨hsupplied, ⟨hgoesOn, hreturned⟩ | ⟨hover, hreturned⟩⟩ := engineStep_callerImages he
    · exact ⟨hreturned ▸ List.prefix_rfl, hsupplied ▸ List.suffix_rfl, fun _ =>
        ⟨hsupplied, fun _ _ => .inl ⟨hgoesOn.trans hrun, hreturned⟩⟩⟩
    · exact ⟨hreturned ▸ List.prefix_append _ _, hsupplied ▸ List.suffix_rfl, fun _ =>
        ⟨hsupplied, fun _ hm => .inr ⟨hover, hreturned.trans (State.handedBack_of_mem hm)⟩⟩⟩
  · exact ⟨List.prefix_rfl, hs ▸ List.suffix_cons _ _, fun hrunning => by simp [hrun] at hrunning⟩

end Sys2Proof.Machine
end

section
/-! The pass loop (spec/44_execution_engine.md sections 4 and 5): a pass taken apart into its steps, what they
keep, and the whole `process` call. -/

namespace Sys2Proof.Machine

/-! ### A pass, step by step -/

theorem runPass_running_start {s t : State} {k : Nat} (h : runPass k s = .next t) (ht : t.run = .running) :
    s.run = .running := by
  by_contra hs
  rw [runPass_of_over k hs] at h
  cases h
  exact hs ht

/-- The first step of a pass that answers a state. -/
theorem runPass_first {s t : State} {k : Nat} (hs : s.run = .running) (h : runPass (k + 1) s = .next t) :
    ∃ u, engineStep s = .next u ∧ runPass k u = .next t := by
  cases he : engineStep s with
  | next u => exact ⟨u, rfl, (runPass_succ k hs he).symm.trans h⟩
  | fault f => simp [runPass, hs, he] at h
  | refused r => simp [runPass, hs, he] at h

/-- The last step of a pass that still runs. -/
theorem runPass_last {s t : State} {k : Nat} (h : runPass (k + 1) s = .next t) (ht : t.run = .running) :
    ∃ u, runPass k s = .next u ∧ u.run = .running ∧ engineStep u = .next t := by
  have hs := runPass_running_start h ht
  obtain ⟨s1, he, hrest⟩ := runPass_first hs h
  induction k generalizing s s1 with
  | zero =>
    cases hrest
    exact ⟨s, rfl, hs, he⟩
  | succ k ih =>
    have hs1 := runPass_running_start hrest ht
    obtain ⟨s2, he1, hrest1⟩ := runPass_first hs1 hrest
    obtain ⟨u, hu, hurun, hue⟩ := ih hrest hs1 s2 he1 hrest1
    exact ⟨u, (runPass_succ k hs he).trans hu, hurun, hue⟩

/-- The step that ended a pass which no longer runs. -/
theorem runPass_ending {s t : State} {k : Nat} (hs : s.run = .running) (h : runPass k s = .next t)
    (ht : t.run ≠ .running) :
    ∃ j u, j < k ∧ runPass j s = .next u ∧ u.run = .running ∧ engineStep u = .next t := by
  induction k generalizing s with
  | zero =>
    cases h
    exact absurd hs ht
  | succ k ih =>
    obtain ⟨s1, he, hrest⟩ := runPass_first hs h
    by_cases hs1 : s1.run = .running
    · obtain ⟨j, u, hj, hu, hurun, hue⟩ := ih hs1 hrest
      exact ⟨j + 1, u, by omega, (runPass_succ j hs he).trans hu, hurun, hue⟩
    · rw [runPass_of_over k hs1] at hrest
      cases hrest
      exact ⟨0, s, by omega, rfl, hs, he⟩

/-- What holds at the start of a pass and is kept by every step after which it still runs, holds of every running
state the pass reaches. -/
theorem runPass_induction {P : Nat → State → Prop} {s : State} (hstart : P 0 s)
    (hstep : ∀ k u t, runPass k s = .next u → u.run = .running → P k u → engineStep u = .next t →
      t.run = .running → P (k + 1) t) :
    ∀ {k : Nat} {u : State}, runPass k s = .next u → u.run = .running → P k u := by
  intro k
  induction k with
  | zero =>
    intro u h _
    cases h
    exact hstart
  | succ k ih =>
    intro t h ht
    obtain ⟨u, hu, hurun, hue⟩ := runPass_last h ht
    exact hstep k u t hu hurun (ih hu hurun) hue ht

/-- A pass with its image attached is never stopped. -/
theorem runPass_isNext {s : State} (k : Nat) (hm : s.run = .running → s.mem.isSome = true) :
    ∃ t, runPass k s = .next t := by
  induction k generalizing s with
  | zero => exact ⟨s, rfl⟩
  | succ k ih =>
    by_cases hs : s.run = .running
    · obtain ⟨m, hm⟩ := Option.isSome_iff_exists.1 (hm hs)
      obtain ⟨t, he⟩ := engineStep_isNext hm
      rw [runPass_succ k hs he]
      apply ih
      rcases engineStep_goesOn_or_ends he with ⟨-, -, -, -, -, -, -, hmem, -⟩ | rfl | ⟨-, f, rfl⟩
      · exact fun _ => hmem
      · simp
      · simp
    · exact ⟨s, runPass_of_over _ hs⟩

/-! ### What the steps of a pass keep -/

/-- What a pass begun in `s` still shows after `k` steps, while it runs: its image, the caller's lists, the fault
record, the emissions before it, and pc grown by at least one for each step. -/
structure PassKeeps (s : State) (k : Nat) (u : State) : Prop where
  mem : u.mem.isSome = true
  returned : u.returned = s.returned
  supplied : u.supplied = s.supplied
  fault : u.fault = s.fault
  out : s.out <+: u.out
  steps_le_pc : k ≤ u.pc.toNat

theorem passKeeps {s u : State} {k : Nat} (hm : s.mem.isSome = true) (h : runPass k s = .next u)
    (hu : u.run = .running) : PassKeeps s k u := by
  refine runPass_induction (P := PassKeeps s) ⟨hm, rfl, rfl, rfl, List.prefix_rfl, Nat.zero_le _⟩ ?_ h hu
  intro k u t _ _ hkeeps he ht
  rcases engineStep_goesOn_or_ends he with
    ⟨-, -, -, -, -, -, -, hmem, hpc, hreturned, hsupplied, hfault, hout⟩ | rfl | ⟨-, f, rfl⟩
  · exact ⟨hmem, hreturned.trans hkeeps.returned, hsupplied.trans hkeeps.supplied, hfault.trans hkeeps.fault,
      hkeeps.out.trans hout, by have := hkeeps.steps_le_pc; omega⟩
  · simp at ht
  · simp at ht

/-- After fourteen steps a pass is over, or past the region: pc has grown with every step. -/
theorem runPass_fourteen {s t : State} (hm : s.mem.isSome = true) (h : runPass 14 s = .next t)
    (ht : t.run = .running) : 0x0D < t.pc.toNat :=
  (passKeeps hm h ht).steps_le_pc

/-- Settles O28. -/
theorem everyPassEndsWithinFourteenInstructions : Obligations.EveryPassEndsWithinFourteenInstructions := by
  intro s m _ hm _
  have hsome : s.mem.isSome = true := by simp [hm]
  obtain ⟨t, ht⟩ := runPass_isNext 14 fun _ => hsome
  refine ⟨t, ht, ?_⟩
  by_cases hrun : t.run = .running
  · have hpast := runPass_fourteen hsome ht hrun
    exact .inr ⟨hpast, (step_of_running hrun).trans (engineStep_of_pastRegion hpast)⟩
  · exact .inl hrun

/-- The fifteenth step, where there is one, is the loop exit: no pass runs on after it. -/
theorem runPass_passSteps_over {s t : State} (hm : s.mem.isSome = true) (h : runPass passSteps s = .next t) :
    t.run ≠ .running := by
  intro ht
  obtain ⟨u, hu, hurun, hue⟩ := runPass_last h ht
  rw [engineStep_of_pastRegion (runPass_fourteen hm hu hurun)] at hue
  cases hue
  simp at ht

/-- The images of a pass stay canonical. -/
theorem passImage_wf {s u : State} {image m : Memory} {k : Nat} (himage : s.mem = some image)
    (hwf : image.wf = true) (h : runPass k s = .next u) (hu : u.run = .running) (hm : u.mem = some m) :
    m.wf = true := by
  refine runPass_induction (P := fun _ u => ∀ m, u.mem = some m → m.wf = true) ?_ ?_ h hu m hm
  · intro m hm
    obtain rfl : image = m := Option.some.inj (himage.symm.trans hm)
    exact hwf
  · intro k u t _ _ hkeeps he ht m' hm'
    obtain ⟨m, i, hm, -, -, hexec⟩ := engineStep_running he ht
    exact exec_image_wf hexec hm hm' (hkeeps m hm)

/-- A STORE stood at pc in a state the pass begun in `s` reached, and `b` was its address operand or the next. -/
def StoredByPass (s : State) (b : Nat) : Prop :=
  b < 0x14 ∧ ∃ k u m, k ≤ 13 ∧ runPass k s = .next u ∧ u.run = .running ∧ u.mem = some m ∧ u.pc.toNat ≤ 0x0D ∧
    m.read u.pc.toNat = 0x02#8 ∧
    (b = (m.read (u.pc.toNat + 2)).toNat ∨ b = (m.read (u.pc.toNat + 2)).toNat + 1)

/-- A byte a running step of the pass changes was stored by the pass. -/
theorem storedByPass_of_step {s u t : State} {k b : Nat} {m m' : Memory} (hsome : s.mem.isSome = true)
    (hu : runPass k s = .next u) (hurun : u.run = .running) (he : engineStep u = .next t) (ht : t.run = .running)
    (hm : u.mem = some m) (hm' : t.mem = some m') (hb : m'.read b ≠ m.read b) : StoredByPass s b := by
  obtain ⟨m1, i, hm1, hp, hi, hexec⟩ := engineStep_running he ht
  obtain rfl : m = m1 := Option.some.inj (hm.symm.trans hm1)
  obtain ⟨r, a, rfl, hbyte, hlt⟩ := exec_changed_byte hexec hm hm' hb
  obtain ⟨hop, -, ha⟩ := store_bytes_of_fetchInstr hp hi
  have hk := (passKeeps hsome hu hurun).steps_le_pc
  exact ⟨hlt, k, u, m, by omega, hu, hurun, hm, hp, hop, by rw [ha]; exact hbyte⟩

/-- Every byte in which the pass's image differs from the one it began with was stored by the pass. -/
theorem storedByPass_of_read_ne {s u : State} {image m : Memory} {k b : Nat} (himage : s.mem = some image)
    (h : runPass k s = .next u) (hu : u.run = .running) (hm : u.mem = some m)
    (hb : m.read b ≠ image.read b) : StoredByPass s b := by
  have hsome : s.mem.isSome = true := by simp [himage]
  refine runPass_induction (P := fun _ u => ∀ m, u.mem = some m → m.read b ≠ image.read b → StoredByPass s b)
    ?_ ?_ h hu m hm hb
  · intro m hm hb
    obtain rfl : image = m := Option.some.inj (himage.symm.trans hm)
    exact absurd rfl hb
  · intro k u t hu hurun hbefore he ht m' hm' hb
    obtain ⟨m, -, hm, -⟩ := engineStep_running he ht
    by_cases hsame : m'.read b = m.read b
    · exact hbefore m hm (hsame ▸ hb)
    · exact storedByPass_of_step hsome hu hurun he ht hm hm' hsame

/-! ### The whole process call -/

/-- The state in which the pass of the call `process(s, image)` starts (R111). -/
abbrev State.passStart (s : State) (image : Memory) : State := { s with mem := some image, run := .running }

/-- A call on an Idle processor returns by one last step of its pass, after at most fourteen others. -/
theorem processPass_lastStep {s : State} (image : Memory) (hidle : s.run = .idle) :
    ∃ t k u, processPass s image = .next t ∧ t.run ≠ .running ∧ k ≤ 14 ∧
      runPass k (s.passStart image) = .next u ∧ u.run = .running ∧ engineStep u = .next t := by
  obtain ⟨t, ht⟩ := runPass_isNext (s := s.passStart image) passSteps fun _ => rfl
  have hover := runPass_passSteps_over rfl ht
  obtain ⟨k, u, hk, hu, hurun, hue⟩ := runPass_ending rfl ht hover
  exact ⟨t, k, u, (processPass_of_idle image hidle).trans ht, hover, by simp [passSteps] at hk; omega, hu, hurun, hue⟩

/-- What the call `process(s, _)` that returned in `t` with `image'` handed back shows the caller: how the pass
ended, and what it kept. -/
structure CallReturns (s t : State) (image' : Memory) : Prop where
  mem : t.mem = none
  returned : t.returned = s.returned ++ [image']
  supplied : t.supplied = s.supplied
  out : s.out <+: t.out
  ending : (t.run = .idle ∧ t.pc = 0x0000#16 ∧ t.fault = s.fault) ∨
    (t.run = .faulted ∧ ∃ f, t.fault = some f ∧ f.pcAtFault = t.pc ∧ t.pc.toNat ≤ 0x0D)

/-- The last step of a pass returns the call, with the image attached before it handed back. -/
theorem callReturns_of_lastStep {s u t : State} {image : Memory} {k : Nat}
    (hu : runPass k (s.passStart image) = .next u) (hurun : u.run = .running) (he : engineStep u = .next t)
    (hover : t.run ≠ .running) : ∃ image', u.mem = some image' ∧ CallReturns s t image' := by
  have hkeeps := passKeeps rfl hu hurun
  obtain ⟨image', himage⟩ := Option.isSome_iff_exists.1 hkeeps.mem
  have hreturned : u.handedBack = s.returned ++ [image'] := by
    rw [State.handedBack_of_mem himage, hkeeps.returned]
  refine ⟨image', himage, ?_⟩
  rcases engineStep_goesOn_or_ends he with ⟨-, -, -, -, -, -, hgoesOn, -⟩ | rfl | ⟨hp, f, rfl⟩
  · exact absurd (hgoesOn.trans hurun) hover
  · exact ⟨rfl, hreturned, hkeeps.supplied, hkeeps.out, .inl ⟨rfl, rfl, hkeeps.fault⟩⟩
  · exact ⟨rfl, hreturned, hkeeps.supplied, hkeeps.out, .inr ⟨rfl, _, rfl, rfl, hp⟩⟩

/-- Settles O29. -/
theorem processCallAlwaysReturns : Obligations.ProcessCallAlwaysReturns := by
  intro s image hidle _ hnoFault
  obtain ⟨t, k, u, hcall, hover, hk, hu, hurun, hue⟩ := processPass_lastStep image hidle
  obtain ⟨image', himage, hreturns⟩ := callReturns_of_lastStep hu hurun hue hover
  refine ⟨t, image', hcall, hreturns.mem, hreturns.returned, hreturns.supplied, hreturns.out, ?_,
    ⟨k, u, hk, hu, hurun, himage, (step_of_running hurun).trans hue⟩,
    fun hwf => passImage_wf rfl hwf hu hurun himage,
    fun b hb => storedByPass_of_read_ne rfl hu hurun himage hb⟩
  rcases hreturns.ending with ⟨hrun, hpc, hfault⟩ | hfaulted
  · exact .inl ⟨⟨hcall, (State.endedNormally_iff t).2 ⟨hrun, hfault.trans hnoFault⟩⟩, hpc⟩
  · exact .inr hfaulted

/-- The machine's own steps run a pass to its end. -/
theorem coreRun_of_runPass {s t : State} {k : Nat} (hs : s.run = .running) (h : runPass k s = .next t)
    (ht : t.run ≠ .running) : ∃ j ≤ k, Sys2Proof.core.run j s = .next t := by
  induction k generalizing s with
  | zero =>
    cases h
    exact absurd hs ht
  | succ k ih =>
    obtain ⟨s1, he, hrest⟩ := runPass_first hs h
    have hstep : step s = .next s1 := (step_of_running hs).trans he
    by_cases hs1 : s1.run = .running
    · obtain ⟨j, hj, hrun⟩ := ih hs1 hrest
      exact ⟨j + 1, by omega, (coreRun_succ j hstep).trans hrun⟩
    · rw [runPass_of_over k hs1] at hrest
      cases hrest
      exact ⟨1, by omega, coreRun_succ 0 hstep⟩

/-- Settles O39: the first step takes the call, and at most fifteen more run its pass. -/
theorem machineStepsRunWholeProcessCall : Obligations.MachineStepsRunWholeProcessCall := by
  intro s image rest hidle _ hs
  obtain ⟨t, ht⟩ := runPass_isNext (s := State.passStart { s with supplied := rest } image) passSteps fun _ => rfl
  have hover := runPass_passSteps_over rfl ht
  obtain ⟨j, hj, hrun⟩ := coreRun_of_runPass rfl ht hover
  refine ⟨j + 1, t, by simp [passSteps] at hj; omega, ?_, hover, ?_⟩
  · exact (coreRun_succ j (step_of_idle_call hidle hs)).trans hrun
  · exact (processPass_of_idle (s := { s with supplied := rest }) image hidle).trans ht

end Sys2Proof.Machine
end

section
/-! What the host observes (spec/44_execution_engine.md section 6): one finished pass, and a chained run. -/

namespace Sys2Proof.Machine

/-! ### One pass -/

/-- Only a call on an Idle processor returns a state. -/
theorem idle_of_processPass {s t : State} {image : Memory} (h : processPass s image = .next t) : s.run = .idle := by
  cases hrun : s.run with
  | idle => rfl
  | running => simp [processPass_of_running image hrun] at h
  | faulted => simp [processPass_of_faulted image hrun] at h

/-- What every call that returned a state shows the caller. -/
theorem callReturns_of_processPass {s t : State} {image : Memory} (h : processPass s image = .next t) :
    ∃ image', CallReturns s t image' := by
  obtain ⟨t', k, u, hcall, hover, -, hu, hurun, hue⟩ := processPass_lastStep image (idle_of_processPass h)
  obtain rfl : t = t' := by simpa [h] using hcall
  obtain ⟨image', -, hreturns⟩ := callReturns_of_lastStep hu hurun hue hover
  exact ⟨image', hreturns⟩

theorem observePass_of_finished {s t : State} {image : Memory} (h : PassFinished s image t) :
    observePass s image = passShown s t := by
  obtain ⟨hcall, hended⟩ := h
  simp [observePass, hcall, hended]

/-- Only a finished pass is observed. -/
theorem finished_of_observePass {s : State} {image : Memory} {o : PassObservation}
    (h : observePass s image = some o) : ∃ t, PassFinished s image t ∧ passShown s t = some o := by
  cases hcall : processPass s image with
  | next t =>
    cases hended : t.endedNormally with
    | true => exact ⟨t, ⟨hcall, hended⟩, by simpa [observePass, hcall, hended] using h⟩
    | false => simp [observePass, hcall, hended] at h
  | fault f => simp [observePass, hcall] at h
  | refused r => simp [observePass, hcall] at h

theorem observePass_of_faulted {s t : State} {image : Memory} (hcall : processPass s image = .next t)
    (ht : t.run = .faulted) : observePass s image = none := by
  have hended : t.endedNormally = false := by simp [State.endedNormally, ht]
  simp [observePass, hcall, hended]

theorem observePass_of_not_idle {s : State} (image : Memory) (hs : s.run ≠ .idle) :
    observePass s image = none := by
  rw [Option.eq_none_iff_forall_ne_some]
  intro o ho
  obtain ⟨t, ⟨hcall, -⟩, -⟩ := finished_of_observePass ho
  exact hs (idle_of_processPass hcall)

/-- A finished pass returned its call with pc = 0. -/
theorem PassFinished.callReturns {s t : State} {image : Memory} (h : PassFinished s image t) :
    ∃ image', CallReturns s t image' ∧ t.pc = 0x0000#16 := by
  obtain ⟨hcall, hended⟩ := h
  obtain ⟨hidle, -⟩ := (State.endedNormally_iff t).1 hended
  obtain ⟨image', hreturns⟩ := callReturns_of_processPass hcall
  rcases hreturns.ending with ⟨-, hpc, -⟩ | ⟨hfaulted, -⟩
  · exact ⟨image', hreturns, hpc⟩
  · simp [hidle] at hfaulted

/-- What is shown says which image was handed back last, the registers, and the emissions after the old ones. -/
theorem passShown_eq_some_iff {s t : State} {image' : Memory} (h : CallReturns s t image') (o : PassObservation) :
    passShown s t = some o ↔ t.returned = s.returned ++ [o.image] ∧ t.r1 = o.r1 ∧ t.r2 = o.r2 ∧ t.pc = o.pc ∧
      t.out = s.out ++ o.emitted := by
  obtain ⟨emitted, hout⟩ := h.out
  obtain ⟨image, r1, r2, pc, oEmitted⟩ := o
  simp [passShown, h.returned, ← hout]

/-- Settles O40. -/
theorem observationIsOfFinishedPass : Obligations.ObservationIsOfFinishedPass := by
  intro s image
  refine ⟨fun o => ⟨fun ho => ?_, ?_⟩, fun t => observePass_of_faulted, observePass_of_not_idle image⟩
  · obtain ⟨t, hfinished, hshown⟩ := finished_of_observePass ho
    obtain ⟨image', hreturns, hpc⟩ := hfinished.callReturns
    obtain ⟨hreturned, hr1, hr2, hopc, hout⟩ := (passShown_eq_some_iff hreturns o).1 hshown
    exact ⟨t, hfinished, hreturned, hr1, hr2, hopc, hopc ▸ hpc, hout⟩
  · rintro ⟨t, hfinished, hreturned, hr1, hr2, hopc, -, hout⟩
    obtain ⟨image', hreturns, -⟩ := hfinished.callReturns
    rw [observePass_of_finished hfinished]
    exact (passShown_eq_some_iff hreturns o).2 ⟨hreturned, hr1, hr2, hopc, hout⟩

/-! ### A chained run -/

/-- Every finished pass has an observation. -/
theorem PassFinished.observePass {s t : State} {image : Memory} (h : PassFinished s image t) :
    ∃ o, observePass s image = some o ∧ o.r1 = t.r1 ∧ o.r2 = t.r2 := by
  obtain ⟨image', hreturns, -⟩ := h.callReturns
  rw [observePass_of_finished h]
  exact ⟨⟨image', t.r1, t.r2, t.pc, t.out.drop s.out.length⟩, by simp [passShown, hreturns.returned], rfl, rfl⟩

/-- A chain whose first pass is finished: its observation, then the rest from the state it left. -/
theorem runChain_of_finished {s t : State} {image : Memory} {o : PassObservation} (rest : List Memory)
    (h : PassFinished s image t) (ho : observePass s image = some o) :
    runChain (image :: rest) s = (o :: (runChain rest t).1, (runChain rest t).2) := by
  simp [runChain_cons_next rest h.1, ho]

/-- A chain whose first pass faults observes nothing and goes no further. -/
theorem runChain_of_firstFaulted {s t : State} {image : Memory} (rest : List Memory)
    (hcall : processPass s image = .next t) (ht : t.run = .faulted) :
    runChain (image :: rest) s = ([], if rest = [] then .next t else .refused .processorFaulted) := by
  simp [runChain_cons_next rest hcall, observePass_of_faulted hcall ht, runChain_of_faulted rest ht]

/-- Settles O41. -/
theorem chainedRunObservesFinishedPasses : Obligations.ChainedRunObservesFinishedPasses := by
  intro s image rest
  refine ⟨fun t hfinished => ?_, fun t hcall ht => ?_⟩
  · obtain ⟨o, ho, hr1, hr2⟩ := hfinished.observePass
    have hchain := runChain_of_finished rest hfinished ho
    exact ⟨o, ho, hr1, hr2, congrArg Prod.fst hchain, by rw [hchain]⟩
  · have hchain := runChain_of_firstFaulted rest hcall ht
    have hend := congrArg Prod.snd hchain
    exact ⟨congrArg Prod.fst hchain, fun hrest => hend.trans (if_pos hrest), fun hrest => hend.trans (if_neg hrest)⟩

/-- A call on an Idle processor without a fault record is finished at pc = 0, or leaves it Faulted. -/
theorem processPass_finished_or_faulted {s : State} (image : Memory) (hidle : s.run = .idle)
    (hnoFault : s.fault = none) :
    ∃ t, processPass s image = .next t ∧
      ((PassFinished s image t ∧ t.run = .idle ∧ t.pc = 0x0000#16 ∧ t.fault = none) ∨ t.run = .faulted) := by
  obtain ⟨t, -, -, hcall, -⟩ := processPass_lastStep image hidle
  obtain ⟨image', hreturns⟩ := callReturns_of_processPass hcall
  refine ⟨t, hcall, ?_⟩
  rcases hreturns.ending with ⟨hrun, hpc, hsame⟩ | ⟨hfaulted, -⟩
  · have hfault : t.fault = none := hsame.trans hnoFault
    exact .inl ⟨⟨hcall, (State.endedNormally_iff t).2 ⟨hrun, hfault⟩⟩, hrun, hpc, hfault⟩
  · exact .inr hfaulted

/-- Settles O42: by induction on the images, each finished pass leaving the processor as the next call needs it. -/
theorem chainedRunIsCompleteOrFaults : Obligations.ChainedRunIsCompleteOrFaults := by
  intro images
  induction images with
  | nil =>
    intro s hidle hpc hfault
    exact .inl ⟨rfl, s, rfl, hidle, hpc, hfault⟩
  | cons image rest ih =>
    intro s hidle _ hnoFault
    obtain ⟨t, hcall, ⟨hfinished, hrun, hpc, hfault⟩ | hfaulted⟩ :=
      processPass_finished_or_faulted image hidle hnoFault
    · obtain ⟨o, ho, -⟩ := hfinished.observePass
      have hrest := ih t hrun hpc hfault
      simp only [observeChain, runChain_of_finished rest hfinished ho, List.length_cons, Nat.add_right_cancel_iff,
        Nat.add_lt_add_iff_right]
      exact hrest
    · right
      simp only [observeChain, runChain_of_firstFaulted rest hcall hfaulted]
      refine ⟨by simp, ?_⟩
      by_cases hrest : rest = []
      · exact .inl ⟨t, if_pos hrest, hfaulted⟩
      · exact .inr (if_neg hrest)

end Sys2Proof.Machine
end
